-- ==== Sys2Proof/Word.lean ====
section
/-! DEFINITION. The words of the CRC16 Engine: the 16-bit checksum word, the 8-bit byte, the 18-bit command word (R10, R20, R64).
Bit 0 is the least significant bit of each (R11); every value is unsigned (R10). -/

namespace Sys2Proof

/-- A checksum value: the register `CRC`, a seed, a response, `POLY`, `XOROUT` (R4, R7, R20). -/
abbrev Word := BitVec 16

/-- One element of a buffer, the operand of `FOLD` (R10, R66). -/
abbrev Byte := BitVec 8

/-- One word on the command port `cmd`; bit 17 is the most significant (R60, R64). -/
abbrev CommandWord := BitVec 18

end Sys2Proof
end

