-- ==== Sys2Proof/Syntax.lean ====
section
/-! DEFINITION. The commands of the engine, one constructor per row of spec/opcode_table.json (R64, R65, R137). -/

namespace Sys2Proof

/-- The four commands (R64): the whole command set (R137). Ignored bits of a command word are decoded away (R67). -/
inductive Instr where
  /-- `NOP`: do nothing (R80). -/
  | nop
  /-- `SEED S`: load the checksum state from the external value `S` (R84). -/
  | seed (S : Word)
  /-- `FOLD b`: fold one byte into the checksum state (R90). -/
  | fold (b : Byte)
  /-- `READ`: respond with the external checksum state (R85). -/
  | read
  deriving DecidableEq, Repr

end Sys2Proof
end

