-- ==== Sys2Proof/WellFormed.lean ====
section
/-! DEFINITION. What a well-formed command is. Every operand value of every command is legal (R66, R68), so a command of the type
`Instr` has nothing to check; the checks stand where a number that is not yet an operand is written down, in assembler literals
(R71). -/

namespace Sys2Proof

/-- Every command is well formed: "Every one of the 65536 values is legal" for `SEED`, "Every one of the 256 values is legal"
for `FOLD` (R66), and no encoding is illegal or reserved (R68). -/
def Instr.wellFormed : Instr → Bool
  | .nop => true
  | .seed _ => true
  | .fold _ => true
  | .read => true

/-- The range of a `SEED`, `RESTORE` or `CRC16` literal: 0 to 65535 (R71). -/
def seedLiteralOk (n : Nat) : Bool := n < 65536

/-- The range of a `FOLD` or buffer literal: 0 to 255 (R71). -/
def byteLiteralOk (n : Nat) : Bool := n < 256

/-- A character a quoted buffer literal may hold: printable ASCII (R71), codes 0x20 to 0x7E. -/
def printableAscii (c : Char) : Bool := 0x20 ≤ c.toNat && c.toNat ≤ 0x7E

end Sys2Proof
end

