-- ==== Sys2Proof/Decode.lean ====
section
/-! DEFINITION. Decoding and encoding of command words (R64 to R69, R72, R73). Decoding is stateless and does not depend on the
register or on the parameters (R69). -/

namespace Sys2Proof

/-- Field `OP = cmd[17:16]` (R64). -/
def opField (w : CommandWord) : BitVec 2 := w.extractLsb' 16 2

/-- Field `ARG = cmd[15:0]` (R64). -/
def argField (w : CommandWord) : Word := w.extractLsb' 0 16

/-- Operand of `SEED`: `S = cmd[15:0]`, used as is (R66). -/
def seedOperand (w : CommandWord) : Word := argField w

/-- Operand of `FOLD`: `b = cmd[7:0]`, used as is, whatever `REFIN` is (R66). -/
def byteOperand (w : CommandWord) : Byte := w.extractLsb' 0 8

/-- `zext_18(v)`: zero extension to the width of a command word (R12, R72). -/
def zext18 {n : Nat} (v : BitVec n) : CommandWord := v.setWidth 18

/-- Decoding, total on the 2^18 command words; ignored bits are dropped (R67, R73). -/
def decode (w : CommandWord) : Instr :=
  if opField w = 0b00#2 then .nop
  else if opField w = 0b01#2 then .seed (seedOperand w)
  else if opField w = 0b10#2 then .fold (byteOperand w)
  else .read

/-- Canonical encoding (R72). -/
def encode : Instr → CommandWord
  | .nop => 0x00000#18
  | .seed S => 0x10000#18 + zext18 S
  | .fold b => 0x20000#18 + zext18 b
  | .read => 0x30000#18

/-- The bits of a command word that its command ignores: `cmd[15:0]` of `NOP` and `READ`, `cmd[15:8]` of `FOLD`, none of `SEED`
(R67). -/
def ignoredMask (w : CommandWord) : CommandWord :=
  if opField w = 0b01#2 then 0x00000#18
  else if opField w = 0b10#2 then 0x0FF00#18
  else 0x0FFFF#18

/-- A canonical word has its ignored bits zero (R67, R72). -/
def isCanonical (w : CommandWord) : Bool := w &&& ignoredMask w = 0#18

/-- The mnemonic of a command, as spec/opcode_table.json spells it. -/
def mnemonicOf : Instr → String
  | .nop => "NOP"
  | .seed _ => "SEED"
  | .fold _ => "FOLD"
  | .read => "READ"

/-- One row of the opcode map (30_encoding.md section 4): a word `w` is the row's command when `w AND maskBits = matchBits`. -/
structure OpcodeRow where
  mnemonic : String
  matchBits : CommandWord
  maskBits : CommandWord
  deriving DecidableEq, Repr

/-- The opcode map of 30_encoding.md section 4. -/
def opcodeTable : List OpcodeRow :=
  [ ⟨"NOP", 0x00000#18, 0x30000#18⟩,
    ⟨"SEED", 0x10000#18, 0x30000#18⟩,
    ⟨"FOLD", 0x20000#18, 0x30000#18⟩,
    ⟨"READ", 0x30000#18, 0x30000#18⟩ ]

/-- Does a word belong to a row? -/
def rowMatches (r : OpcodeRow) (w : CommandWord) : Bool := w &&& r.maskBits = r.matchBits

/-- Why a number is no command word. -/
inductive DecodeError where
  /-- "Words wider than 18 bits do not exist on the port" (95_test_vectors.md section 2). Raised by `decodeNat`; safe. -/
  | widerThanCommandWord
  deriving DecidableEq, Repr

/-- Decoding of a number: the command of the 18-bit word it is, or the reason it is none. -/
def decodeNat (w : Nat) : Except DecodeError Instr :=
  if w < 2 ^ 18 then .ok (decode (BitVec.ofNat 18 w)) else .error .widerThanCommandWord

/-- The command that the decoder reads from a word numbered as spec/opcode_table.json numbers it. A command is one 18-bit word
that crosses the port whole (R43, R61), so it has no byte order; `nbits` (18 in whole bytes) adds nothing (log entry 9). -/
def decodeTableWord (_nbits w : Nat) : Option Instr := (decodeNat w).toOption

end Sys2Proof
end

