-- ==== Sys2Proof/Machine/State.lean ====
section
/-! DEFINITION. The state of one engine instance and of its ports, the reasons a step can stop, and the reset state (R20, R21, R30,
R60, R130, R132, R150). -/

namespace Sys2Proof.Machine

/-- What the host does with the port `rst` at one moment (R60, R150, R151). -/
inductive RstLine where
  /-- `rst` is not asserted. -/
  | released
  /-- `rst` is asserted: nothing is accepted (R61, R134). -/
  | asserted
  /-- `rst` is asserted after the command offered at this moment was accepted and before its effect is complete: the command is
  abandoned (R150, R151; log entries 7, 17). -/
  | assertedMidCommand
  deriving DecidableEq, Repr

/-- One moment of the ports: the inputs `rst`, `cmd_valid` and `cmd` (R60), and whether the engine is still busy. `cmd_ready` is no
input: the engine drives it from `rst` and from being busy (`Moment.cmdReady`). How long it is busy, with an earlier command or with
building its table, is timing on which no rule depends (R61, R154, R158), so that is taken as found (log entry 4). -/
structure Moment where
  rst : RstLine
  cmdValid : Bool
  cmd : CommandWord
  busy : Bool
  deriving DecidableEq, Repr

/-- Faults of the engine: NONE. "The complete list of exceptions of the engine is empty" (R130); no step raises one (R131). -/
inductive Fault where
  deriving DecidableEq, Repr

/-- Situations to which the spec gives no meaning; they are no exceptions of the hardware (R132). -/
inductive Refusal where
  /-- No meaning yet for an instruction, raised by `exec`'s arms; safe. -/
  | notModelled (mnemonic : String)
  /-- `refuse(unseeded)`: `FOLD` or `READ` executed while `CRC` holds no value (R152). Raised by `execFold` and `execRead` on
  those states only; safe: the real register holds some bits, and the model claims nothing of them. -/
  | unseeded
  /-- `refuse(length_mismatch)`: a `CRC16` or `CONT` whose length exceeds the accessible size of its buffer (R112). Raised by the
  host-side calls `callWithLength` and `contWithLength`, never by `exec`; safe. -/
  | lengthMismatch
  deriving DecidableEq, Repr

/-- One engine instance at its ports. -/
structure State where
  /-- The register `CRC`: the raw remainder, or no value before the first `SEED` since reset (R20, R21, R30). -/
  crc : Option Word
  /-- The output `cmd_ready` as the engine drove it at the moment last served; 0 at power-on and whenever `rst` is asserted (R60,
  R61, R150; log entry 15). -/
  cmdReady : Bool
  /-- The response port: `some v` when `rsp_valid = 1` and `rsp = v`, `none` when `rsp_valid = 0` (R60, R63). -/
  rsp : Option Word
  /-- The moments of the ports still to come, earliest first: the host's (R61), not the engine's (log entry 3). -/
  inputs : List Moment
  /-- The responses delivered so far, in order: the outputs of a run (R63, R160; log entry 6). -/
  responses : List Word
  deriving DecidableEq, Repr

/-- The machine right after reset: `CRC` holds no value (R21, R150), `cmd_ready = 0` and no response is delivered (R150), the host
has offered nothing yet. -/
def State.reset : State where
  crc := none
  cmdReady := false
  rsp := none
  inputs := []
  responses := []

end Sys2Proof.Machine
end

