-- ==== Sys2Proof/Machine/Ops.lean ====
section
/-! DEFINITION. The named operations over the state: reading and writing `CRC`, responding, reset, the handshake of one moment, and
the left fold of commands that is a run (R22, R50, R61 to R63, R150, R160). -/

namespace Sys2Proof.Machine

/-- The outcome of a step of the engine. -/
abbrev Result := Host.Outcome State Fault Refusal

/-- `CRC <- v` (R14). -/
def State.writeCrc (s : State) (v : Word) : State := { s with crc := some v }

/-- A read of `CRC` (R14): what the command does with the value, or `refuse(unseeded)` where there is none (R152). -/
def State.readCrc (s : State) (use : Word → State) : Result :=
  match s.crc with
  | some r => .next (use r)
  | none => .refused .unseeded

/-- `respond(v)`: `v` on `rsp` with `rsp_valid = 1`, one response, after all earlier ones (R63). -/
def State.respond (s : State) (v : Word) : State :=
  { s with rsp := some v, responses := s.responses ++ [v] }

/-- `rsp_valid` falls (R63; log entry 5). -/
def State.lowerRsp (s : State) : State := { s with rsp := none }

/-- The engine drives `cmd_ready` (R61; log entry 15). -/
def State.driveReady (s : State) (ready : Bool) : State := { s with cmdReady := ready }

/-- Reset of the engine: `CRC` holds no value, `cmd_ready = 0`, no response is delivered, nothing else changes (R150, R151). -/
def State.resetEngine (s : State) : State := { s with crc := none, cmdReady := false, rsp := none }

/-- The output `cmd_ready`, as the engine drives it at a moment: 0 while `rst` is asserted and while the engine is busy, else 1
(R61). -/
def Moment.cmdReady (m : Moment) : Bool := m.rst != .asserted && !m.busy

/-- The handshake: the word accepted at a moment, if one is (R61, R134). -/
def Moment.accepted (m : Moment) : Option CommandWord :=
  if m.cmdValid && m.cmdReady && m.rst != .asserted then some m.cmd else none

/-- Is `rst` asserted within a moment, at once or in mid-command (R150)? -/
def Moment.resets (m : Moment) : Bool := m.rst != .released

/-- The moment at which a ready engine accepts the host's command word (R61). -/
def Moment.accepting (w : CommandWord) : Moment :=
  { rst := .released, cmdValid := true, cmd := w, busy := false }

/-- The engine at one moment. Reset wins and abandons a command in progress (R134, R150); an accepted word is decoded and executed
(R62); else nothing but `cmd_ready` changes (R61, R157). DESIGN CHOICE (log entry 17): a `FOLD` or `READ` accepted while `CRC` holds no
value and cut by `rst` in mid-command is abandoned (R150) and not refused (R132, U1); the spec gives neither precedence. -/
def serve (ex : Instr → State → Result) (m : Moment) (s : State) : Result :=
  if m.resets then .next s.resetEngine
  else
    match m.accepted with
    | some w => ex (decode w) (s.driveReady m.cmdReady)
    | none => .next (s.driveReady m.cmdReady)

/-- One step at the ports: the next moment of the schedule is served, after `rsp_valid` has fallen; with no moment left the engine
waits (R160; log entries 5, 8). -/
def stepBy (ex : Instr → State → Result) (s : State) : Result :=
  match s.inputs with
  | [] => .next s.lowerRsp
  | m :: rest => serve ex m { s.lowerRsp with inputs := rest }

/-- The next moment of the host's schedule becomes one at which the word `w` is accepted (log entry 8). -/
def State.offer (s : State) (w : CommandWord) : State :=
  { s with inputs := Moment.accepting w :: s.inputs }

/-- What follows an outcome: the next computation in a next state, the same stop otherwise. -/
def andThen {σ τ : Type} (x : Host.Outcome σ Fault Refusal) (f : σ → Host.Outcome τ Fault Refusal) :
    Host.Outcome τ Fault Refusal :=
  match x with
  | .next s => f s
  | .fault e => .fault e
  | .refused q => .refused q

/-- A run: the left fold of the step over the accepted commands, in acceptance order (R50, R62). A refusal ends it (U1). -/
def runBy (ex : Instr → State → Result) : List Instr → State → Result
  | [], s => .next s
  | i :: is, s => andThen (ex i s.lowerRsp) (runBy ex is)

end Sys2Proof.Machine
end

