-- ==== Sys2Proof/Config.lean ====
section
/-! DEFINITION. The constants of an engine instance (R4 to R9, R26). The spec leaves every one of them open (D1, D4: "do not guess a
default"), so the machine's own are one opaque constant without a body: a theorem about the machine holds for every variant. -/

namespace Sys2Proof

/-- `IMPL`, the folding strategy: one bit at a time, or one byte at a time by the 256-entry table (R8). -/
inductive Impl where
  | bitSerial
  | table
  deriving DecidableEq, Repr, Inhabited

/-- The constants of one engine instance; they "must be fixed once" and no command changes or reads them (R9, R26). -/
structure Params where
  /-- `POLY`: bit `i` is the coefficient of x^i of the generator polynomial; x^16 is implicit (R4). Every value is legal. -/
  poly : Word
  /-- `REFIN`: false folds bit 7 of each byte first, true bit 0 first (R5, R42). -/
  refIn : Bool
  /-- `REFOUT`: true reverses the raw remainder on the way out and on the way in (R6). -/
  refOut : Bool
  /-- `XOROUT`: the mask applied on the way out and on the way in (R7). -/
  xorOut : Word
  /-- `IMPL`: unobservable (R8, R97). -/
  impl : Impl
  deriving DecidableEq, Repr, Inhabited

/-- The constants of THIS engine: open parameters of the spec (D1, D4), so no value is given (log entry 1). -/
opaque Config.params : Params

end Sys2Proof
end

