-- ==== Sys2Proof/Machine/Bits.lean ====
section
/-! DEFINITION. The vector operations of R11 to R13: shifts that drop bits, extensions, reflection, halves. -/

namespace Sys2Proof.Machine

/-- `shl16(v, k)`: shift left, zeros enter at bit 0, bits leaving at bit 15 are discarded (R12). -/
def shl16 (v : Word) (k : Nat) : Word := v <<< k

/-- `shr16(v, k)`: shift right, zeros enter at bit 15 (R12). -/
def shr16 (v : Word) (k : Nat) : Word := v >>> k

/-- `zext_16(b)`: a byte in the low half, zeros above (R12). -/
def zext16 (b : Byte) : Word := b.setWidth 16

/-- `sext_16(b)`: sign extension, defined for the completeness of the notation; no rule uses it (R12). -/
def sext16 (b : Byte) : Word := b.signExtend 16

/-- `reflect16(v)`: bit reversal of a 16-bit value (R13). -/
def reflect16 (v : Word) : Word := v.reverse

/-- `reflect8(b)`: bit reversal of a byte (R13). -/
def reflect8 (b : Byte) : Byte := b.reverse

/-- `v[15:8]` (R11). -/
def highByte (v : Word) : Byte := v.extractLsb' 8 8

/-- `v[7:0]` (R11). -/
def lowByte (v : Word) : Byte := v.extractLsb' 0 8

/-- `{b, 0x00}`: a byte in the high half (R11, R96). -/
def inHighHalf (b : Byte) : Word := b ++ 0x00#8

/-- The bits of a byte, bit 7 first (R92 with `REFIN = false`). -/
def bitsMsbFirst (b : Byte) : List Bool :=
  [b.getLsbD 7, b.getLsbD 6, b.getLsbD 5, b.getLsbD 4, b.getLsbD 3, b.getLsbD 2, b.getLsbD 1, b.getLsbD 0]

/-- The bits of a byte, bit 0 first (R92 with `REFIN = true`). -/
def bitsLsbFirst (b : Byte) : List Bool :=
  [b.getLsbD 0, b.getLsbD 1, b.getLsbD 2, b.getLsbD 3, b.getLsbD 4, b.getLsbD 5, b.getLsbD 6, b.getLsbD 7]

/-- The bits of a byte in the order in which the engine folds them (R5, R42). -/
def bitsInFoldOrder (refIn : Bool) (b : Byte) : List Bool :=
  if refIn then bitsLsbFirst b else bitsMsbFirst b

/-- The byte `c` of R95 and R96: the operand with its first-folded bit at bit 7. -/
def byteInFoldOrder (refIn : Bool) (b : Byte) : Byte :=
  if refIn then reflect8 b else b

end Sys2Proof.Machine
end

