-- ==== Sys2Proof/Machine/Reduction.lean ====
section
/-! DEFINITION. The polynomial reduction (41_fold.md): the bit-serial shifter, the table-driven form, the XOR-in form, and the
right-shifting forms by which a conforming implementation with `REFIN = true` can be recognised (R91 to R99). -/

namespace Sys2Proof.Machine

/-- `bitstep(r, d)`: one step of the division of the raw remainder `r` by the generator polynomial, data bit `d` (R91). -/
def bitstep (poly : Word) (r : Word) (d : Bool) : Word :=
  let fb := (r.getLsbD 15).xor d
  let t := shl16 r 1
  if fb then t ^^^ poly else t

/-- One `bitstep` per data bit, in the order of the list (R92, R93). -/
def bitsteps (poly : Word) (r : Word) (ds : List Bool) : Word := ds.foldl (bitstep poly) r

/-- `foldbyte(r, b)`, the defining form: eight `bitstep`s in the order `REFIN` says (R92). -/
def foldbyte (poly : Word) (refIn : Bool) (r : Word) (b : Byte) : Word :=
  bitsteps poly r (bitsInFoldOrder refIn b)

/-- `TBL[i]`: eight `bitstep`s of the byte `i`, most significant bit first, from the zero remainder (R94). -/
def tblEntry (poly : Word) (i : Byte) : Word := bitsteps poly 0x0000#16 (bitsMsbFirst i)

/-- The table `TBL`: 256 entries, a function of `POLY` alone (R27, R94, R154). -/
def tbl (poly : Word) : List Word := (List.range 256).map fun i => tblEntry poly (BitVec.ofNat 8 i)

/-- Table-driven fold: one table read and two XORs per byte (R95). -/
def foldbyteTable (poly : Word) (refIn : Bool) (r : Word) (b : Byte) : Word :=
  let idx := highByte r ^^^ byteInFoldOrder refIn b
  shl16 r 8 ^^^ tblEntry poly idx

/-- The XOR-in form: the byte goes into the high half, then eight `bitstep`s with data 0 (R96). -/
def foldbyteXorIn (poly : Word) (refIn : Bool) (r : Word) (b : Byte) : Word :=
  bitsteps poly (r ^^^ inHighHalf (byteInFoldOrder refIn b)) (List.replicate 8 false)

/-- What `FOLD` computes in an engine of strategy `IMPL` (R8, R92, R95). -/
def foldByImpl (p : Params) (r : Word) (b : Byte) : Word :=
  match p.impl with
  | .bitSerial => foldbyte p.poly p.refIn r b
  | .table => foldbyteTable p.poly p.refIn r b

/-- `bitstep_r(q, d)`: the step of the right-shifting form; `rpoly` is `reflect16(POLY)` (R98). -/
def bitstepR (rpoly : Word) (q : Word) (d : Bool) : Word :=
  let fb := (q.getLsbD 0).xor d
  let t := shr16 q 1
  if fb then t ^^^ rpoly else t

/-- `foldbyte_r(q, b)`: eight right-shifting steps, bit 0 of the byte first (R98). -/
def foldbyteR (poly : Word) (q : Word) (b : Byte) : Word :=
  (bitsLsbFirst b).foldl (bitstepR (reflect16 poly)) q

/-- `RTBL[i]`: the table of the right-shifting form (R99). -/
def rtblEntry (poly : Word) (i : Byte) : Word := reflect16 (tblEntry poly (reflect8 i))

/-- The table-driven right-shifting fold (R99). -/
def foldbyteRTable (poly : Word) (q : Word) (b : Byte) : Word :=
  shr16 q 8 ^^^ rtblEntry poly (lowByte q ^^^ b)

end Sys2Proof.Machine
end

