-- ==== Sys2Proof/Machine/Fold.lean ====
section
/-! DEFINITION. The command `FOLD` (41_fold.md R90), for every value of the parameters and for this engine's. -/

namespace Sys2Proof.Machine

/-- `FOLD b` in an engine of parameters `p`: `CRC <- foldbyte(CRC, b)`, by the strategy `IMPL`; no response (R8, R90, R152). -/
def foldWith (p : Params) (b : Byte) (s : State) : Result := s.readCrc fun r => s.writeCrc (foldByImpl p r b)

/-- `FOLD b` (R90). -/
def execFold (b : Byte) (s : State) : Result := foldWith Config.params b s

end Sys2Proof.Machine
end

