-- ==== Sys2Proof/Machine/Operands.lean ====
section
/-! DEFINITION. The boundary transforms between the external checksum value, which crosses the ports, and the raw remainder, which
the register holds (40_state_transfer.md section 2, conflict C1). -/

namespace Sys2Proof.Machine

/-- `In(s)`: from the external state to the raw remainder; first the mask, then the reflection (R82). -/
def inTransform (p : Params) (s : Word) : Word :=
  let t := s ^^^ p.xorOut
  if p.refOut then reflect16 t else t

/-- `Out(r)`: from the raw remainder to the external state; first the reflection, then the mask (R83). -/
def outTransform (p : Params) (r : Word) : Word :=
  let t := if p.refOut then reflect16 r else r
  t ^^^ p.xorOut

end Sys2Proof.Machine
end

