-- ==== Sys2Proof/Machine/StateTransfer.lean ====
section
/-! DEFINITION. The commands `NOP`, `SEED` and `READ` (40_state_transfer.md). Each is given for every value of the parameters and
then for this engine's. -/

namespace Sys2Proof.Machine

/-- `SEED S` in an engine of parameters `p`: `CRC <- In(S)`; the previous content is not read (R84). -/
def seedWith (p : Params) (S : Word) (s : State) : Result := .next (s.writeCrc (inTransform p S))

/-- `READ` in an engine of parameters `p`: `respond(Out(CRC))`; `CRC` is not written (R85, R152). -/
def readWith (p : Params) (s : State) : Result := s.readCrc fun r => s.respond (outTransform p r)

/-- `NOP`: nothing, in every state (R80). -/
def execNop (s : State) : Result := .next s

/-- `SEED S` (R84). -/
def execSeed (S : Word) (s : State) : Result := seedWith Config.params S s

/-- `READ` (R85). -/
def execRead (s : State) : Result := readWith Config.params s

end Sys2Proof.Machine
end

