-- ==== Sys2Proof/Machine/Dispatch.lean ====
section
/-! DEFINITION. The engine executes one accepted command (R62): one arm per command. -/

namespace Sys2Proof.Machine

def exec (i : Instr) (s : State) : Host.Outcome State Fault Refusal :=
  match i with
  | .nop => Sys2Proof.Machine.execNop s
  | .seed S => Sys2Proof.Machine.execSeed S s
  | .fold b => Sys2Proof.Machine.execFold b s
  | .read => Sys2Proof.Machine.execRead s

end Sys2Proof.Machine
end

