-- ==== Sys2Proof/Machine/Step.lean ====
section
/-! DEFINITION. One step of the engine at its ports, and the host's way to offer it one command word (R61, R62). -/

namespace Sys2Proof.Machine

/-- One moment of the ports: an accepted command word is decoded and executed; see `stepBy`. -/
def step (s : State) : Host.Outcome State Fault Refusal := stepBy exec s

/-- `s` with the command word `w` offered and accepted at the next moment. A command is one 18-bit word (R64); `nbits` adds nothing
(log entries 8, 9). -/
def State.withFetchWord (s : State) (_nbits w : Nat) : State := s.offer (BitVec.ofNat 18 w)

end Sys2Proof.Machine
end

