-- ==== Sys2Proof/Machine/Call.lean ====
section
/-! DEFINITION. The document's call and the pseudo-instructions that are built from the four commands (R70, R110 to R117). A buffer
is a finite list of bytes on the host's side (R15, R112). -/

namespace Sys2Proof.Machine

/-- `foldbuf(r, B)`: the raw remainder after a whole buffer, bytes in ascending index (R41, R111). -/
def foldbuf (p : Params) (r : Word) (B : List Byte) : Word := B.foldl (foldbyte p.poly p.refIn) r

/-- `crc16(S, B)` (R111). -/
def crc16 (p : Params) (S : Word) (B : List Byte) : Word := outTransform p (foldbuf p (inTransform p S) B)

/-- The pseudo-instructions (R70). -/
inductive Pseudo where
  /-- `CRC16 S, B`: the document's call (R110). -/
  | crc16 (S : Word) (B : List Byte)
  /-- `CONT B`: continue the running checksum over a further buffer (R116). -/
  | cont (B : List Byte)
  /-- `SAVE`: read out the external state (R117). -/
  | save
  /-- `RESTORE v`: put back a value obtained by `SAVE` (R117). -/
  | restore (v : Word)
  deriving DecidableEq, Repr

/-- `FOLD B[i]` for `i = 0` to `len(B) - 1`, in that order (R70, R116). -/
def contCommands (B : List Byte) : List Instr := B.map .fold

/-- `SEED S`, the `FOLD`s of the buffer, `READ`: `len(B) + 2` commands (R70, R110). -/
def callCommands (S : Word) (B : List Byte) : List Instr := .seed S :: (contCommands B ++ [.read])

/-- The expansion of a pseudo-instruction (R70). -/
def Pseudo.expand : Pseudo → List Instr
  | .crc16 S B => callCommands S B
  | .cont B => contCommands B
  | .save => [.read]
  | .restore v => [.seed v]

/-- A call with a length of its own: the first `n` bytes are folded, and a length beyond the buffer is refused (R112). -/
def callWithLength (ex : Instr → State → Result) (S : Word) (B : List Byte) (n : Nat) (s : State) : Result :=
  if n ≤ B.length then runBy ex (callCommands S (B.take n)) s else .refused .lengthMismatch

/-- `CONT` with a length of its own (R112, R132). -/
def contWithLength (ex : Instr → State → Result) (B : List Byte) (n : Nat) (s : State) : Result :=
  if n ≤ B.length then runBy ex (contCommands (B.take n)) s else .refused .lengthMismatch

end Sys2Proof.Machine
end

