-- ==== Sys2Proof/Machine/Assembler.lean ====
section
/-! DEFINITION. The assembler of R71: one command or pseudo-instruction a line, `;` to the end of the line is a comment, mnemonics in
upper case, literals hexadecimal (`0x`) or decimal, buffers as a braced list or a quoted string. It emits canonical words (R72).
The spacing and other lexical details R71 leaves open are in log entry 11. -/

namespace Sys2Proof.Machine

/-- Why a line is no program line. -/
inductive AsmError where
  /-- A literal outside its range (R71). -/
  | literalOutOfRange
  /-- A character in a quoted buffer that is not printable ASCII (R71). -/
  | notPrintable
  /-- Anything else that is not of the form of R71. -/
  | malformedLine
  deriving DecidableEq, Repr

/-- A lexical unit of a line. -/
inductive Token where
  | word (cs : List Char)
  | comma
  | openBrace
  | closeBrace
  | quoted (cs : List Char)
  deriving DecidableEq, Repr

/-- What the lexer is in the middle of; the characters collected so far stand latest first. -/
inductive LexMode where
  | gap
  | inWord (acc : List Char)
  | inQuote (acc : List Char)
  deriving DecidableEq, Repr

/-- The character that opens a braced list, code 0x7B. -/
def openBraceChar : Char := Char.ofNat 0x7B

/-- The character that closes a braced list, code 0x7D. -/
def closeBraceChar : Char := Char.ofNat 0x7D

/-- The token of a word that has just ended, if one was being collected. -/
def LexMode.flush : LexMode → List Token
  | .inWord acc => [.word acc.reverse]
  | _ => []

/-- The lexer: tokens of a line, up to its comment. A comma, a brace, a quote or a comment ends the word before it without a space
(log entry 11). -/
def lex : LexMode → List Char → Except AsmError (List Token)
  | .inQuote _, [] => .error .malformedLine
  | m, [] => .ok m.flush
  | .inQuote acc, c :: cs =>
    if c = '"' then (lex .gap cs).map (.quoted acc.reverse :: ·)
    else if printableAscii c then lex (.inQuote (c :: acc)) cs
    else .error .notPrintable
  | m, c :: cs =>
    if c = ';' then .ok m.flush
    else if c = ' ' || c = '\t' then (lex .gap cs).map (m.flush ++ ·)
    else if c = ',' then (lex .gap cs).map (m.flush ++ .comma :: ·)
    else if c = openBraceChar then (lex .gap cs).map (m.flush ++ .openBrace :: ·)
    else if c = closeBraceChar then (lex .gap cs).map (m.flush ++ .closeBrace :: ·)
    else if c = '"' then (lex (.inQuote []) cs).map (m.flush ++ ·)
    else
      match m with
      | .inWord acc => lex (.inWord (c :: acc)) cs
      | _ => lex (.inWord [c]) cs

/-- The value of a digit in a base up to 16. -/
def digitValue (base : Nat) (c : Char) : Option Nat :=
  let n := c.toNat
  let v :=
    if 0x30 ≤ n && n ≤ 0x39 then n - 0x30
    else if 0x41 ≤ n && n ≤ 0x46 then n - 0x41 + 10
    else if 0x61 ≤ n && n ≤ 0x66 then n - 0x61 + 10
    else 16
  if v < base then some v else none

/-- The number that a list of digits denotes, most significant digit first. -/
def digitsValue (base : Nat) : Nat → List Char → Option Nat
  | acc, [] => some acc
  | acc, c :: cs => (digitValue base c).bind fun v => digitsValue base (acc * base + v) cs

/-- The value of a literal: `0x` and hexadecimal digits, or decimal digits (R71). -/
def literalValue : List Char → Except AsmError Nat
  | [] => .error .malformedLine
  | '0' :: 'x' :: [] => .error .malformedLine
  | '0' :: 'x' :: ds => ((digitsValue 16 0 ds).map Except.ok).getD (.error .malformedLine)
  | ds => ((digitsValue 10 0 ds).map Except.ok).getD (.error .malformedLine)

/-- A 16-bit literal (R71). -/
def seedLiteral (cs : List Char) : Except AsmError Word :=
  (literalValue cs).bind fun n => if seedLiteralOk n then .ok (BitVec.ofNat 16 n) else .error .literalOutOfRange

/-- An 8-bit literal (R71). -/
def byteLiteral (cs : List Char) : Except AsmError Byte :=
  (literalValue cs).bind fun n => if byteLiteralOk n then .ok (BitVec.ofNat 8 n) else .error .literalOutOfRange

/-- The rest of a braced list, after its opening brace or a comma: literals with commas between them, then the brace. -/
def bracedBytes : List Token → Except AsmError (List Byte)
  | [.word v, .closeBrace] => (byteLiteral v).map ([·])
  | .word v :: .comma :: ts => (byteLiteral v).bind fun b => (bracedBytes ts).map (b :: ·)
  | _ => .error .malformedLine

/-- A buffer literal: a braced list, possibly empty, or a quoted string whose characters stand for their ASCII codes (R71). -/
def bufferLiteral : List Token → Except AsmError (List Byte)
  | [.quoted cs] => .ok (cs.map fun c => BitVec.ofNat 8 c.toNat)
  | [.openBrace, .closeBrace] => .ok []
  | .openBrace :: ts => bracedBytes ts
  | _ => .error .malformedLine

/-- The commands of one line, given as its tokens (R70, R71). A line without tokens stands for no command. -/
def assembleTokens : List Token → Except AsmError (List Instr)
  | [] => .ok []
  | .word m :: ts =>
    if m = ['N', 'O', 'P'] then (if ts = [] then .ok [.nop] else .error .malformedLine)
    else if m = ['R', 'E', 'A', 'D'] then (if ts = [] then .ok [.read] else .error .malformedLine)
    else if m = ['S', 'A', 'V', 'E'] then (if ts = [] then .ok Pseudo.save.expand else .error .malformedLine)
    else if m = ['C', 'O', 'N', 'T'] then (bufferLiteral ts).map fun B => (Pseudo.cont B).expand
    else
      match ts with
      | [.word v] =>
        if m = ['S', 'E', 'E', 'D'] then (seedLiteral v).map fun S => [.seed S]
        else if m = ['F', 'O', 'L', 'D'] then (byteLiteral v).map fun b => [.fold b]
        else if m = ['R', 'E', 'S', 'T', 'O', 'R', 'E'] then (seedLiteral v).map fun S => (Pseudo.restore S).expand
        else .error .malformedLine
      | .word v :: .comma :: ts' =>
        if m = ['C', 'R', 'C', '1', '6'] then
          (seedLiteral v).bind fun S => (bufferLiteral ts').map fun B => (Pseudo.crc16 S B).expand
        else .error .malformedLine
      | _ => .error .malformedLine
  | _ => .error .malformedLine

/-- The canonical words of one line (R71, R72). -/
def assembleLine (line : List Char) : Except AsmError (List CommandWord) :=
  (lex .gap line).bind fun ts => (assembleTokens ts).map (·.map encode)

/-- The canonical words of a program, in program order (R71). -/
def assemble : List (List Char) → Except AsmError (List CommandWord)
  | [] => .ok []
  | l :: ls => (assembleLine l).bind fun ws => (assemble ls).map (ws ++ ·)

end Sys2Proof.Machine
end

