-- ==== Sys2Proof/Machine/StepFunction.lean ====
section
/-! DEFINITION. The engine for every value of its parameters: the execution of a command (R62), the step function in the very form
of R62, and the right-shifting engine by which R98 lets a conforming implementation be recognised. -/

namespace Sys2Proof.Machine

/-- One accepted command in an engine of parameters `p` (R62). -/
def execWith (p : Params) (i : Instr) (s : State) : Result :=
  match i with
  | .nop => execNop s
  | .seed S => seedWith p S s
  | .fold b => foldWith p b s
  | .read => readWith p s

/-- One moment of the ports of an engine of parameters `p`. -/
def stepWith (p : Params) (s : State) : Result := stepBy (execWith p) s

/-- `n` moments of the ports of an engine of parameters `p`; a refusal ends them (U1). -/
def stepsWith (p : Params) : Nat → State → Result
  | 0, s => .next s
  | n + 1, s => andThen (stepWith p s) (stepsWith p n)

/-- What R62 calls the state before with the accepted word, giving the state after and the response, if any. -/
abbrev StepFunction := Option Word → CommandWord → Host.Outcome (Option Word × Option Word) Fault Refusal

/-- `step` as R62 writes it: `(Option uint16) x CommandWord -> (Option uint16) x (Option uint16)`, refused where the state is
`none` and the command is `FOLD` or `READ`. -/
def specStep (p : Params) : StepFunction := fun c w =>
  match decode w, c with
  | .nop, _ => .next (c, none)
  | .seed S, _ => .next (some (inTransform p S), none)
  | .fold b, some r => .next (some (foldbyte p.poly p.refIn r b), none)
  | .read, some r => .next (some r, some (outTransform p r))
  | .fold _, none => .refused .unseeded
  | .read, none => .refused .unseeded

/-- The engine that holds `Q = reflect16(CRC)` and shifts towards bit 0 (R98): `SEED S` is `Q <- reflect16(In(S))`, `READ` is
`respond(Out(reflect16(Q)))`. It is meant for `REFIN = true`. -/
def rightShiftStep (p : Params) : StepFunction := fun q w =>
  match decode w, q with
  | .nop, _ => .next (q, none)
  | .seed S, _ => .next (some (reflect16 (inTransform p S)), none)
  | .fold b, some v => .next (some (foldbyteR p.poly v b), none)
  | .read, some v => .next (some v, some (outTransform p (reflect16 v)))
  | .fold _, none => .refused .unseeded
  | .read, none => .refused .unseeded

/-- A run of a step function over accepted command words: the final state and the responses in order (R62, R160). -/
def runWords (f : StepFunction) : List CommandWord → Option Word → Host.Outcome (Option Word × List Word) Fault Refusal
  | [], c => .next (c, [])
  | w :: ws, c =>
    andThen (f c w) fun a => andThen (runWords f ws a.1) fun b => .next (b.1, a.2.toList ++ b.2)

end Sys2Proof.Machine
end

