-- ==== Sys2Proof/Machine/Instances.lean ====
section
/-! DEFINITION. Several engine instances side by side (R30, R51, R141): each has its own parameters, register and ports, and its own
end where it is refused; they share nothing. -/

namespace Sys2Proof.Machine

/-- One instance: the constants it was built with, its state, and the refusal that ended its run, if one did (R141; log entry
16). -/
structure Engine where
  params : Params
  state : State
  refusal : Option Refusal
  deriving DecidableEq, Repr

/-- An instance right after reset: all leave it the same way (R141, R150). -/
def Engine.start (p : Params) : Engine := { params := p, state := State.reset, refusal := none }

/-- What an instance can do in one step of a system. -/
inductive Activity where
  /-- It accepts a command at its own port (R62). -/
  | accepts (i : Instr)
  /-- It serves the next moment of its own ports, a reset among them (R61, R150). -/
  | serves
  deriving DecidableEq, Repr

/-- The outcome of an activity for the instance that performs it. -/
def Activity.outcome (p : Params) (s : State) : Activity → Result
  | .accepts i => execWith p i s.lowerRsp
  | .serves => stepWith p s

/-- The instance after an outcome: a refusal is kept, and the state stays as it was before it (U1). There are no faults (R130). -/
def Engine.record (e : Engine) : Result → Engine
  | .next s => { e with state := s }
  | .refused q => { e with refusal := some q }
  | .fault f => nomatch f

/-- An instance performs an activity; once refused, it does nothing for the rest of the run (U1). -/
def Engine.act (e : Engine) (a : Activity) : Engine :=
  match e.refusal with
  | none => e.record (a.outcome e.params e.state)
  | some _ => e

/-- An instance performs its activities one after the other (R50). -/
def Engine.run (e : Engine) (as : List Activity) : Engine := as.foldl Engine.act e

/-- How the run of an instance stands. -/
def Engine.outcome (e : Engine) : Result :=
  match e.refusal with
  | none => .next e.state
  | some q => .refused q

/-- The instance at place `k` performs an activity and no other instance changes (R141); where no instance stands nothing happens
(log entry 12). -/
def actAt (es : List Engine) (k : Nat) (a : Activity) : List Engine := es.modify k (·.act a)

/-- Activities of several instances, interleaved in time (R51). -/
def runInterleaved (cs : List (Nat × Activity)) (es : List Engine) : List Engine :=
  cs.foldl (fun es c => actAt es c.1 c.2) es

/-- The activities of an interleaving that the instance at place `k` performs: only its own (R141). -/
def streamOf (k : Nat) (cs : List (Nat × Activity)) : List Activity := (cs.filter fun c => c.1 == k).map (·.2)

end Sys2Proof.Machine
end

