-- ==== Sys2Proof/Safety.lean ====
section
/-! DEFINITION. The terms in which claims about the engine are stated: which runs are safe, what the register and the responses are
after a run, the invariant of the response port, and the polynomials over GF(2) of which R93 speaks. -/

namespace Sys2Proof.Safety

open Sys2Proof.Machine

/-- The external state of an engine whose register holds a value (R30). -/
def externalState (p : Params) (s : State) : Option Word := s.crc.map (outTransform p)

/-- A command sequence in which no `FOLD` or `READ` stands before a `SEED`, unless the register holds a value already: what the host
owes the engine (R153). -/
def WellSeeded : Bool → List Instr → Bool
  | _, [] => true
  | seeded, .nop :: is => WellSeeded seeded is
  | _, .seed _ :: is => WellSeeded true is
  | seeded, .fold _ :: is => seeded && WellSeeded seeded is
  | seeded, .read :: is => seeded && WellSeeded seeded is

/-- Two states that differ at most in the register. -/
def SameButCrc (s t : State) : Prop :=
  s.cmdReady = t.cmdReady ∧ s.rsp = t.rsp ∧ s.inputs = t.inputs ∧ s.responses = t.responses

/-- An outcome without its output ports: the register, the schedule, the responses delivered and the refusal remain. -/
def withoutPorts (x : Result) : Result := andThen x fun t => .next { t with cmdReady := false, rsp := none }

/-- A schedule of moments without reset; each of them is one at which a word is accepted or nothing is. -/
def ResetFree (ms : List Moment) : Prop := ∀ m ∈ ms, m.resets = false

/-- The command words accepted in a schedule, in order (R61). -/
def acceptedWords (ms : List Moment) : List CommandWord := ms.filterMap Moment.accepted

/-- What a valid response port shows: the external state, and the response delivered last (R63, R85); and it is valid only after a
moment at which the engine was ready, since a `READ` was accepted then (R61). -/
def ResponseInv (p : Params) (s : State) : Prop :=
  ∀ v, s.rsp = some v → externalState p s = some v ∧ s.responses.getLast? = some v ∧ s.cmdReady = true

/-- A bit vector read as a polynomial over GF(2): bit `i` is the coefficient of x^i (R93). -/
noncomputable def polyOf {n : Nat} (v : BitVec n) : Polynomial (ZMod 2) :=
  ∑ i ∈ Finset.range n, if v.getLsbD i then Polynomial.X ^ i else 0

/-- The generator polynomial `G(x) = x^16 + POLY(x)` (R4). -/
noncomputable def generator (poly : Word) : Polynomial (ZMod 2) := Polynomial.X ^ 16 + polyOf poly

/-- The polynomial of a list of data bits in the order they are folded: `d_1, ..., d_k` has `d_j` at x^(k-j) (R93). -/
noncomputable def dataPoly : List Bool → Polynomial (ZMod 2)
  | [] => 0
  | d :: ds => (if d then Polynomial.X ^ ds.length else 0) + dataPoly ds

/-- The byte at index `k` of a buffer with its bit `j` flipped (R119). -/
def flipBit (B : List Byte) (k j : Nat) : List Byte := B.modify k (· ^^^ (1#8 <<< j))

/-- Bytewise XOR of two buffers of equal length (R124). -/
def xorBuffers (B C : List Byte) : List Byte := List.zipWith (· ^^^ ·) B C

end Sys2Proof.Safety
end

