-- ==== Sys2Proof/Certificates/Slice0/Obligations.lean ====
section
/-! DEFINITION. The statements for the provers, in the order of spec/'s files. `Config.params` are this engine's constants, which the
spec leaves open (D1, D4): a statement that names them holds for every variant. A quantified `p : Params` is any engine. -/

open Sys2Proof Sys2Proof.Machine Sys2Proof.Safety

/-! ## Notation and constants (00_scope.md) -/

/-- R12: the shifts are multiplication and division by a power of two, the extensions keep the value. -/
def Obligations.ShiftsAreTruncatedArithmetic : Prop :=
  ∀ (v : Word) (b : Byte) (k : Nat),
    (shl16 v k).toNat = v.toNat * 2 ^ k % 2 ^ 16 ∧ (shr16 v k).toNat = v.toNat / 2 ^ k ∧
      (zext16 b).toNat = b.toNat ∧ (zext18 v).toNat = v.toNat ∧ (zext18 b).toNat = b.toNat ∧
      (sext16 b).toInt = b.toInt

/-- R13: `reflect16(v)[i] = v[15-i]`, `reflect8(b)[i] = b[7-i]`, and both are their own inverse. -/
def Obligations.ReflectionReversesBits : Prop :=
  (∀ (v : Word) (i : Nat), i < 16 → (reflect16 v).getLsbD i = v.getLsbD (15 - i)) ∧
  (∀ (b : Byte) (i : Nat), i < 8 → (reflect8 b).getLsbD i = b.getLsbD (7 - i)) ∧
  (∀ v : Word, reflect16 (reflect16 v) = v) ∧ (∀ b : Byte, reflect8 (reflect8 b) = b)

/-- R8: `IMPL` cannot be observed: every command sequence and every schedule of the ports give the same outcome in two engines that
differ in `IMPL` alone. -/
def Obligations.StrategyIsUnobservable : Prop :=
  ∀ (p : Params) (m : Impl) (s : State),
    stepWith { p with impl := m } s = stepWith p s ∧
      ∀ cs : List Instr, runBy (execWith { p with impl := m }) cs s = runBy (execWith p) cs s

/-- R9, R26 (the model's reading, log entry 1): the machine is the engine whose constants are `Config.params`, in every state; no
command changes them, since they are no part of the state. -/
def Obligations.MachineIsTheConfiguredEngine : Prop :=
  ∀ (i : Instr) (s : State), exec i s = execWith Config.params i s ∧ step s = stepWith Config.params s

/-! ## State (10_state.md) -/

/-- What each command leaves unchanged. The spec's: only `SEED` and `FOLD` write `CRC` (R22), only `READ` delivers a response (R63),
and there is no memory, flag or other register (R20, R25, R28). The model's: an execution leaves the shown `cmd_ready` (log entry 15;
R61 has it low within the command), the host's schedule (entry 3), the record of responses unless it delivers one (entry 6), and
`rsp_valid` unless it is a `READ`, the fall being the step's (entry 5). -/
def Obligations.CommandsLeaveTheRestUnchanged : Prop :=
  ∀ (i : Instr) (s t : State), exec i s = .next t →
    t.inputs = s.inputs ∧ t.cmdReady = s.cmdReady ∧
    (i ≠ .read → t.rsp = s.rsp ∧ t.responses = s.responses) ∧
    (i = .nop ∨ i = .read → t.crc = s.crc)

/-- R22: which commands read `CRC`. `NOP` and `SEED` do not: from two states that differ at most in `CRC` they go on alike, and
`SEED` ends in one and the same state. -/
def Obligations.NopAndSeedDoNotReadTheRegister : Prop :=
  ∀ (s t : State) (S : Word), SameButCrc s t →
    exec (.seed S) s = exec (.seed S) t ∧
    ∃ s' t' : State, exec .nop s = .next s' ∧ exec .nop t = .next t' ∧ SameButCrc s' t'

/-- R30: the external view. `SEED S` makes the external state `S`, `READ` returns it, `FOLD b` replaces the external state `E` by
`crc16(E, [b])`. -/
def Obligations.CommandsActOnTheExternalState : Prop :=
  (∀ (s : State) (S : Word), ∃ t, exec (.seed S) s = .next t ∧ externalState Config.params t = some S) ∧
  (∀ (s : State) (E : Word), externalState Config.params s = some E →
    (∃ t, exec .read s = .next t ∧ t.rsp = some E ∧ externalState Config.params t = some E) ∧
    ∀ b : Byte, ∃ t, exec (.fold b) s = .next t ∧
      externalState Config.params t = some (crc16 Config.params E [b]))

/-! ## Ordering (20_memory.md) -/

/-- R50, R62: accepted commands take effect one at a time, each as a whole, in acceptance order, whatever idle moments stand between
them: a schedule without reset runs as the left fold of the commands accepted in it, up to the output ports. Where every moment
accepts a word the states are equal to the last field. The model's own part: one step serves one moment of the schedule (log entry
3), `rsp_valid` falls before each (entries 5, 14), and `cmd_ready` is shown as at the last moment (entry 15). -/
def Obligations.AcceptedWordsRunInOrder : Prop :=
  (∀ (ms rest : List Moment) (s : State), ResetFree ms →
    withoutPorts (Host.Core.run Sys2Proof.core ms.length { s with inputs := ms ++ rest }) =
      withoutPorts (runBy exec ((acceptedWords ms).map decode) { s with inputs := rest })) ∧
  (∀ (ws : List CommandWord) (rest : List Moment) (s : State),
    Host.Core.run Sys2Proof.core ws.length { s with inputs := ws.map Moment.accepting ++ rest } =
      runBy exec (ws.map decode) { s with cmdReady := s.cmdReady || !ws.isEmpty, inputs := rest })

/-- R50, R62, R160: a run of the machine over a schedule without reset is the left fold of the step function of R62 over the words
accepted in it: the same register, the same responses in order after those delivered before, the same refusal. The schedule and the
record of responses are the model's (log entries 3, 6). -/
def Obligations.RunsFoldTheStepFunction : Prop :=
  ∀ (ms rest : List Moment) (s : State), ResetFree ms →
    andThen (Host.Core.run Sys2Proof.core ms.length { s with inputs := ms ++ rest })
        (fun t => .next (t.crc, t.responses)) =
      andThen (runWords (specStep Config.params) (acceptedWords ms) s.crc) fun a => .next (a.1, s.responses ++ a.2)

/-- R51, R141: in any interleaving of the activities of several instances (commands accepted, moments of the ports served, resets
among them) each instance ends as it ends alone, whatever the others do, their refusals included; alone, its commands are the run of
its engine and its moments the steps of its engine, and a refusal is kept (U1; log entry 16). An activity for a place where no
instance stands does nothing (log entry 12). -/
def Obligations.InterleavingDoesNotMatter : Prop :=
  (∀ (cs : List (Nat × Activity)) (es : List Engine),
    (runInterleaved cs es).length = es.length ∧
    ∀ (k : Nat) (e : Engine), es[k]? = some e → (runInterleaved cs es)[k]? = some (e.run (streamOf k cs))) ∧
  (∀ e : Engine, e.refusal = none →
    (∀ is : List Instr, (e.run (is.map .accepts)).outcome = runBy (execWith e.params) is e.state) ∧
    (∀ n : Nat, (e.run (List.replicate n .serves)).outcome = stepsWith e.params n e.state)) ∧
  (∀ (e : Engine) (q : Refusal) (as : List Activity), e.refusal = some q → e.run as = e)

/-! ## Ports, step, encoding (30_encoding.md) -/

/-- R61: a command is accepted exactly when `cmd_valid = 1`, `cmd_ready = 1` and `rst` is not asserted, and the word is then the one
on `cmd`; the engine drives `cmd_ready = 0` while `rst` is asserted and while it is busy; at a moment without reset at which nothing
is accepted only `cmd_ready` is driven. The model's own part: how long the engine is busy (log entry 4), a reset in mid-command as
one moment at which the word was accepted (entry 7), and in the step the schedule (entry 3), the fall of `rsp_valid` (entry 5) and
the shown `cmd_ready` (entry 15). -/
def Obligations.HandshakeDecidesAcceptance : Prop :=
  (∀ (m : Moment) (w : CommandWord),
    m.accepted = some w ↔ m.cmdValid = true ∧ m.cmdReady = true ∧ m.rst ≠ .asserted ∧ w = m.cmd) ∧
  (∀ m : Moment, m.cmdReady = true ↔ m.rst ≠ .asserted ∧ m.busy = false) ∧
  (∀ (s : State) (m : Moment) (rest : List Moment),
    s.inputs = m :: rest → m.resets = false → m.accepted = none →
      step s = .next { s with cmdReady := m.cmdReady, rsp := none, inputs := rest })

/-- R62: an accepted word is decoded and executed: the step is `exec` of the decoded command. The model's own part (log entries 3,
5, 8, 15): the moment leaves the schedule, `rsp_valid` falls before the command, and `cmd_ready` was 1. The same holds of a word
offered with `withFetchWord`. -/
def Obligations.StepRunsTheDecodedCommand : Prop :=
  (∀ (s : State) (m : Moment) (rest : List Moment) (w : CommandWord),
    s.inputs = m :: rest → m.resets = false → m.accepted = some w →
      step s = exec (decode w) { s with cmdReady := true, rsp := none, inputs := rest }) ∧
  (∀ (s : State) (nbits w : Nat),
    step (s.withFetchWord nbits w) = exec (decode (BitVec.ofNat 18 w)) { s with cmdReady := true, rsp := none })

/-- R62: executing an accepted word is the step function in the form R62 gives it: the same register, the same response if any, the
same refusal. That function is total on every word when the register holds a value, and on `NOP` and `SEED` when it does not. -/
def Obligations.MachineRefinesTheStepFunction : Prop :=
  (∀ (s : State) (w : CommandWord),
    exec (decode w) s.lowerRsp =
      andThen (specStep Config.params s.crc w) fun a =>
        .next { s with crc := a.1, rsp := a.2, responses := s.responses ++ a.2.toList }) ∧
  (∀ (p : Params) (w : CommandWord) (r : Word), ∃ a, specStep p (some r) w = .next a) ∧
  (∀ (p : Params) (w : CommandWord),
    (∃ a, specStep p none w = .next a) ↔ decode w = .nop ∨ ∃ S, decode w = .seed S)

/-- R63: each `READ` that completes delivers one response, `Out(CRC)`, on `rsp` with `rsp_valid = 1`, after all earlier ones; no
other command delivers any; a run delivers as many responses as it has `READ`s. -/
def Obligations.OneResponsePerRead : Prop :=
  (∀ (s t : State), exec .read s = .next t → ∃ r, s.crc = some r ∧
    t.rsp = some (outTransform Config.params r) ∧ t.responses = s.responses ++ [outTransform Config.params r]) ∧
  (∀ (i : Instr) (s t : State), i ≠ .read → exec i s = .next t → t.rsp = s.rsp ∧ t.responses = s.responses) ∧
  (∀ (cs : List Instr) (s t : State), runBy exec cs s = .next t →
    ∃ vs : List Word, t.responses = s.responses ++ vs ∧ vs.length = cs.count .read)

/-- The model's choice of when `rsp_valid` falls (log entry 5): it is 1 from the `READ` until the next command or moment, so after
the last command of a run it is 1 exactly if that command was a `READ`. -/
def Obligations.ResponsePortFallsAfterRead : Prop :=
  (∀ (i : Instr) (s t : State), i ≠ .read → exec i s.lowerRsp = .next t → t.rsp = none) ∧
  (∀ (cs : List Instr) (i : Instr) (s t : State), runBy exec (cs ++ [i]) s = .next t →
    (t.rsp.isSome = true ↔ i = .read)) ∧
  (∀ (s t : State), step s = .next t → t.rsp.isSome = true →
    ∃ m w, s.inputs.head? = some m ∧ m.accepted = some w ∧ decode w = .read)

/-- 30_encoding.md section 4: every 18-bit word matches exactly one row of the opcode map, and decodes to the command of that row. -/
def Obligations.EveryWordMatchesOneRow : Prop :=
  ∀ w : CommandWord, ∃ row ∈ opcodeTable,
    rowMatches row w = true ∧ row.mnemonic = mnemonicOf (decode w) ∧
      ∀ other ∈ opcodeTable, rowMatches other w = true → other = row

/-- R65: the field `OP = cmd[17:16]` selects the command. -/
def Obligations.OpFieldSelectsTheCommand : Prop :=
  ∀ w : CommandWord,
    (decode w = .nop ↔ opField w = 0b00#2) ∧
    ((∃ S, decode w = .seed S) ↔ opField w = 0b01#2) ∧
    ((∃ b, decode w = .fold b) ↔ opField w = 0b10#2) ∧
    (decode w = .read ↔ opField w = 0b11#2)

/-- R66: the operands are the bits of `ARG` as they stand, and every operand value is legal. -/
def Obligations.OperandsAreTakenAsTheyStand : Prop :=
  (∀ (w : CommandWord) (S : Word), decode w = .seed S → ∀ i, i < 16 → S.getLsbD i = w.getLsbD i) ∧
  (∀ (w : CommandWord) (b : Byte), decode w = .fold b → ∀ i, i < 8 → b.getLsbD i = w.getLsbD i) ∧
  (∀ S : Word, ∃ w, decode w = .seed S) ∧ (∀ b : Byte, ∃ w, decode w = .fold b)

/-- R67: `cmd[15:0]` of `NOP` and `READ` and `cmd[15:8]` of `FOLD` are ignored: words that agree in `OP` and in the other bits are
the same command to the engine, whatever its state, and the canonical encoding has the ignored bits zero. -/
def Obligations.IgnoredBitsHaveNoEffect : Prop :=
  (∀ v w : CommandWord, opField v = opField w →
    (opField v = 0b00#2 ∨ opField v = 0b11#2 ∨ (opField v = 0b10#2 ∧ byteOperand v = byteOperand w)) →
      decode v = decode w ∧ ∀ s : State, exec (decode v) s = exec (decode w) s) ∧
  (∀ b : Byte, (encode .nop).extractLsb' 0 16 = 0#16 ∧ (encode .read).extractLsb' 0 16 = 0#16 ∧
    (encode (.fold b)).extractLsb' 8 8 = 0#8)

/-- R72: the canonical encodings. -/
def Obligations.CanonicalEncodings : Prop :=
  (encode .nop).toNat = 0x00000 ∧ (∀ S : Word, (encode (.seed S)).toNat = 0x10000 + S.toNat) ∧
    (∀ b : Byte, (encode (.fold b)).toNat = 0x20000 + b.toNat) ∧ (encode .read).toNat = 0x30000

/-- R73: decoding gives back every encoded command, with every operand. -/
def Obligations.DecodeOfEncode : Prop :=
  ∀ i : Instr, i.wellFormed = true → decode (encode i) = i

/-- R73: encoding a decoded word clears its ignored bits and nothing else, so it gives the word back exactly when they are zero; two
words decode to the same command exactly when they agree outside their ignored bits. -/
def Obligations.EncodeOfDecode : Prop :=
  (∀ w : CommandWord, encode (decode w) = w &&& ~~~(ignoredMask w)) ∧
  (∀ w : CommandWord, encode (decode w) = w ↔ isCanonical w = true) ∧
  (∀ v w : CommandWord, decode v = decode w ↔ v &&& ~~~(ignoredMask v) = w &&& ~~~(ignoredMask w))

/-- Words of each of the four commands written out from the encoding of R64, two of them with ignored bits set. -/
def Obligations.SampleWordsDecode : Prop :=
  decode 0b000000000000000000#18 = .nop ∧ decode 0b001011111011101111#18 = .nop ∧
  decode 0b010001001000110100#18 = .seed 0x1234#16 ∧ decode 0b100000000000110001#18 = .fold 0x31#8 ∧
  decode 0b101010101100110001#18 = .fold 0x31#8 ∧ decode 0b110000000000000000#18 = .read ∧
  decodeTableWord 24 0x31234 = some .read ∧ decodeTableWord 24 0x40000 = none

/-- R71: what the assembler emits are canonical words; a numeric literal is accepted exactly when it is in range. -/
def Obligations.AssemblerEmitsCanonicalWords : Prop :=
  (∀ (lines : List (List Char)) (ws : List CommandWord), assemble lines = .ok ws → ∀ w ∈ ws, isCanonical w = true) ∧
  (∀ (ds : List Char) (n : Nat), literalValue ds = .ok n →
    (seedLiteral ds = if n < 65536 then .ok (BitVec.ofNat 16 n) else .error .literalOutOfRange) ∧
    (byteLiteral ds = if n < 256 then .ok (BitVec.ofNat 8 n) else .error .literalOutOfRange))

/-! ## State transfer (40_state_transfer.md) -/

/-- R80: `NOP` does nothing in any state, and any number of `NOP`s anywhere in a command sequence changes no response, no register
and no refusal (only `rsp_valid` has fallen after a `NOP`). -/
def Obligations.NopDoesNothing : Prop :=
  (∀ s : State, exec .nop s = .next s) ∧
  (∀ (cs : List Instr) (s : State),
    andThen (runBy exec cs s) (fun t => .next t.lowerRsp) =
      andThen (runBy exec (cs.filter fun i => decide (i ≠ .nop)) s) fun t => .next t.lowerRsp)

/-- R82: `In` is the reflection, if `REFOUT`, of `s XOR XOROUT`; it is a bijection, and the identity with `REFOUT = false` and
`XOROUT = 0x0000`. -/
def Obligations.InTransformOnBits : Prop :=
  ∀ p : Params,
    (∀ (s : Word) (i : Nat), i < 16 →
      (inTransform p s).getLsbD i =
        if p.refOut then (s.getLsbD (15 - i)).xor (p.xorOut.getLsbD (15 - i))
        else (s.getLsbD i).xor (p.xorOut.getLsbD i)) ∧
    Function.Bijective (inTransform p) ∧
    (p.refOut = false → p.xorOut = 0#16 → ∀ s, inTransform p s = s)

/-- R83: `Out` is `XOROUT` on the reflection, if `REFOUT`, of `r`; it is a bijection and the inverse of `In`; the two are the same
function exactly when `REFOUT = false` or `reflect16(XOROUT) = XOROUT`. -/
def Obligations.OutTransformInvertsIn : Prop :=
  ∀ p : Params,
    (∀ (r : Word) (i : Nat), i < 16 →
      (outTransform p r).getLsbD i =
        ((if p.refOut then r.getLsbD (15 - i) else r.getLsbD i)).xor (p.xorOut.getLsbD i)) ∧
    Function.Bijective (outTransform p) ∧
    (∀ v, outTransform p (inTransform p v) = v) ∧ (∀ v, inTransform p (outTransform p v) = v) ∧
    ((∀ v, inTransform p v = outTransform p v) ↔ p.refOut = false ∨ reflect16 p.xorOut = p.xorOut)

/-- R84: `SEED S` completes in every state with `CRC = In(S)` and nothing else changed; the previous content is not read; twice in a
row is once; with the current external state it leaves the state as it is. -/
def Obligations.SeedLoadsTheRegister : Prop :=
  (∀ (S : Word) (s : State), exec (.seed S) s = .next { s with crc := some (inTransform Config.params S) }) ∧
  (∀ (S : Word) (s : State), andThen (exec (.seed S) s) (exec (.seed S)) = exec (.seed S) s) ∧
  (∀ (S : Word) (s t : State), SameButCrc s t → exec (.seed S) s = exec (.seed S) t) ∧
  (∀ (s : State) (r : Word), s.crc = some r → exec (.seed (outTransform Config.params r)) s = .next s)

/-- R85: `READ` completes whenever `CRC` holds a value: it responds `Out(CRC)` and changes neither `CRC` nor anything else; directly
after `SEED S` it returns `S`; two in a row return equal values; while `CRC` holds no value it is refused. -/
def Obligations.ReadRespondsTheExternalState : Prop :=
  (∀ (s : State) (r : Word), s.crc = some r →
    exec .read s = .next { s with
      rsp := some (outTransform Config.params r), responses := s.responses ++ [outTransform Config.params r] }) ∧
  (∀ s : State, s.crc = none → exec .read s = .refused .unseeded) ∧
  (∀ (s : State) (S : Word), ∃ t, runBy exec [.seed S, .read] s = .next t ∧ t.rsp = some S) ∧
  (∀ (s t : State), exec .read s = .next t →
    ∃ u, exec .read t = .next u ∧ u.rsp = t.rsp ∧ u.crc = t.crc)

/-- R86: round trips. `SEED S; READ` responds `S`; `SEED` of a value just read leaves `CRC`; different registers give different
responses; a `SEED` overrides the one before it; a second `READ` responds the same and has no more effect on `CRC` than one. -/
def Obligations.SeedAndReadRoundTrip : Prop :=
  (∀ (s : State) (S : Word), ∃ t, runBy exec [.seed S, .read] s = .next t ∧ t.rsp = some S) ∧
  (∀ (s t : State) (v : Word), exec .read s = .next t → t.rsp = some v →
    ∃ u, exec (.seed v) t = .next u ∧ u.crc = s.crc) ∧
  (∀ (s s' t t' : State), exec .read s = .next t → exec .read s' = .next t' → t.rsp = t'.rsp → s.crc = s'.crc) ∧
  (∀ (s : State) (S1 S2 : Word), runBy exec [.seed S1, .seed S2] s = runBy exec [.seed S2] s) ∧
  (∀ (s t : State), runBy exec [.read, .read] s = .next t →
    ∃ u, runBy exec [.read] s = .next u ∧ u.crc = t.crc ∧ u.rsp = t.rsp)

/-! ## The fold (41_fold.md) -/

/-- R90: `FOLD b` completes whenever `CRC` holds a value, with `CRC = foldbyte(CRC, b)` and nothing else changed, whatever the
strategy; it is refused while `CRC` holds none. Folding `0x00` multiplies the remainder by `x^8` modulo `G`; zero folded into zero
is zero; a byte equal to the high half of the register in fold order leaves `shl16(CRC, 8)`. -/
def Obligations.FoldAbsorbsOneByte : Prop :=
  (∀ (s : State) (r : Word) (b : Byte), s.crc = some r →
    exec (.fold b) s =
      .next { s with crc := some (foldbyte Config.params.poly Config.params.refIn r b) }) ∧
  (∀ (s : State) (b : Byte), s.crc = none → exec (.fold b) s = .refused .unseeded) ∧
  (∀ (poly r : Word) (refIn : Bool),
    polyOf (foldbyte poly refIn r 0x00#8) = (polyOf r * Polynomial.X ^ 8) %ₘ generator poly) ∧
  (∀ (poly : Word) (refIn : Bool), foldbyte poly refIn 0x0000#16 0x00#8 = 0x0000#16) ∧
  (∀ (poly r : Word) (refIn : Bool) (b : Byte),
    byteInFoldOrder refIn b = highByte r → foldbyte poly refIn r b = shl16 r 8)

/-- R91: bit `i` of `bitstep(r, d)` is bit `i - 1` of `r` (0 for `i = 0`), inverted by the feedback `r[15] XOR d` where `POLY` has a
tap. -/
def Obligations.BitstepShiftsWithTaps : Prop :=
  ∀ (poly r : Word) (d : Bool) (i : Nat), i < 16 →
    (bitstep poly r d).getLsbD i =
      (decide (0 < i) && r.getLsbD (i - 1)).xor (((r.getLsbD 15).xor d) && poly.getLsbD i)

/-- R92: `foldbyte` is eight `bitstep`s of the bits of the byte, bit 7 first with `REFIN = false` and bit 0 first with
`REFIN = true`; the latter is the former on the reflected byte. -/
def Obligations.FoldbyteIsEightBitsteps : Prop :=
  ∀ (poly r : Word) (b : Byte),
    foldbyte poly false r b = ((List.range 8).map fun j => b.getLsbD (7 - j)).foldl (bitstep poly) r ∧
    foldbyte poly true r b = ((List.range 8).map fun j => b.getLsbD j).foldl (bitstep poly) r ∧
    foldbyte poly true r b = foldbyte poly false r (reflect8 b)

/-- R93: `k` `bitstep`s compute `( r(x) x^k + D(x) x^16 ) mod G(x)` over GF(2); for a byte, `k = 8` and `D` is the byte in fold
order. -/
def Obligations.FoldIsPolynomialRemainder : Prop :=
  (∀ (poly r : Word) (ds : List Bool),
    polyOf (bitsteps poly r ds) =
      (polyOf r * Polynomial.X ^ ds.length + dataPoly ds * Polynomial.X ^ 16) %ₘ generator poly) ∧
  (∀ (poly r : Word) (refIn : Bool) (b : Byte),
    polyOf (foldbyte poly refIn r b) =
      (polyOf r * Polynomial.X ^ 8 + polyOf (byteInFoldOrder refIn b) * Polynomial.X ^ 16) %ₘ generator poly)

/-- R94: `TBL` has 256 entries; `TBL[i]` is eight `bitstep`s of `i` from zero, equally eight steps with data 0 from `{i, 0x00}`, and
is `( i(x) x^16 ) mod G(x)`; `TBL[0] = 0x0000` and `TBL[1] = POLY`. -/
def Obligations.TableEntries : Prop :=
  ∀ poly : Word,
    (tbl poly).length = 256 ∧
    (∀ i : Byte, (tbl poly)[i.toNat]? = some (tblEntry poly i)) ∧
    (∀ i : Byte, tblEntry poly i = bitsteps poly 0x0000#16 (bitsMsbFirst i)) ∧
    (∀ i : Byte, tblEntry poly i = bitsteps poly (inHighHalf i) (List.replicate 8 false)) ∧
    (∀ i : Byte, polyOf (tblEntry poly i) = (polyOf i * Polynomial.X ^ 16) %ₘ generator poly) ∧
    tblEntry poly 0x00#8 = 0x0000#16 ∧ tblEntry poly 0x01#8 = poly

/-- R97 (with R95): the table-driven fold, one read of `TBL` and two XORs, and the bit-serial fold agree on every polynomial, bit
order, remainder and byte. -/
def Obligations.TableFoldEqualsBitSerialFold : Prop :=
  ∀ (poly r : Word) (refIn : Bool) (b : Byte), foldbyteTable poly refIn r b = foldbyte poly refIn r b

/-- R96: folding a byte is XORing it into the high half and shifting eight times with zero data. -/
def Obligations.XorInFoldEqualsBitSerialFold : Prop :=
  ∀ (poly r : Word) (refIn : Bool) (b : Byte), foldbyteXorIn poly refIn r b = foldbyte poly refIn r b

/-- R98: the right-shifting fold is the reflection of the fold, and an engine that holds `reflect16(CRC)` and shifts right gives, in
every run of command words, the same responses and the same refusal as the engine of the spec. -/
def Obligations.RightShiftingEngineConforms : Prop :=
  (∀ (poly r : Word) (b : Byte), foldbyteR poly (reflect16 r) b = reflect16 (foldbyte poly true r b)) ∧
  (∀ (p : Params) (ws : List CommandWord) (c : Option Word), p.refIn = true →
    runWords (rightShiftStep p) ws (c.map reflect16) =
      andThen (runWords (specStep p) ws c) fun a => .next (a.1.map reflect16, a.2))

/-- R99: the table of the right-shifting form, and the fold by it. -/
def Obligations.RightShiftingTable : Prop :=
  ∀ poly : Word,
    (∀ i : Byte, rtblEntry poly i = foldbyteR poly (zext16 i) 0x00#8) ∧
    (∀ (q : Word) (b : Byte), foldbyteR poly q b = foldbyteRTable poly q b)

/-- R100: `foldbyte` is linear over GF(2) in the pair of remainder and byte; for a fixed byte it is a bijection of the remainder
exactly when `POLY[0] = 1`. -/
def Obligations.FoldIsLinear : Prop :=
  ∀ (poly : Word) (refIn : Bool),
    (∀ (r1 r2 : Word) (b1 b2 : Byte),
      foldbyte poly refIn (r1 ^^^ r2) (b1 ^^^ b2) = foldbyte poly refIn r1 b1 ^^^ foldbyte poly refIn r2 b2) ∧
    foldbyte poly refIn 0x0000#16 0x00#8 = 0x0000#16 ∧
    (∀ b : Byte, Function.Bijective (fun r => foldbyte poly refIn r b) ↔ poly.getLsbD 0 = true)

/-- R102: what `FOLD` does to `CRC` depends on `CRC`, the byte, `POLY` and `REFIN` alone: not on the rest of the state, `REFOUT`,
`XOROUT` or `IMPL`. -/
def Obligations.FoldDependsOnPolyAndBitOrderOnly : Prop :=
  ∀ (p q : Params) (b : Byte) (s t s' t' : State), p.poly = q.poly → p.refIn = q.refIn → s.crc = t.crc →
    execWith p (.fold b) s = .next s' → execWith q (.fold b) t = .next t' → s'.crc = t'.crc

/-! ## The call (42_call_and_laws.md) -/

/-- R110, R111: from every state the commands of `CRC16 S, B` complete; the response of the final `READ` is `crc16(S, B)`, `CRC` is
`In` of it, no other response is delivered and nothing else changes. The call is `len(B) + 2` commands. -/
def Obligations.CallComputesCrc16 : Prop :=
  ∀ (S : Word) (B : List Byte) (s : State),
    (callCommands S B).length = B.length + 2 ∧
    runBy exec (callCommands S B) s = .next { s with
      crc := some (inTransform Config.params (crc16 Config.params S B))
      rsp := some (crc16 Config.params S B)
      responses := s.responses ++ [crc16 Config.params S B] }

/-- R112: a call with a length of its own folds the first `length` bytes when the buffer has at least that many, and is refused when
it has fewer. R132 says the latter of `CONT` too; that such a `CONT` is refused as `lengthMismatch` whatever the register holds is
the model's choice (log entry 10). With a fitting length `CONT` folds the first `length` bytes into a register that holds a value;
into one that holds none it is refused as `unseeded` at its first byte (R152), if it has one. -/
def Obligations.CallLengthIsCheckedAgainstBuffer : Prop :=
  ∀ (S : Word) (B : List Byte) (n : Nat) (s : State),
    (n ≤ B.length → ∃ t, callWithLength exec S B n s = .next t ∧
      t.rsp = some (crc16 Config.params S (B.take n))) ∧
    (B.length < n → callWithLength exec S B n s = .refused .lengthMismatch ∧
      contWithLength exec B n s = .refused .lengthMismatch) ∧
    (∀ r, n ≤ B.length → s.crc = some r → ∃ t, contWithLength exec B n s = .next t ∧
      t.crc = some (foldbuf Config.params r (B.take n)) ∧ t.responses = s.responses) ∧
    (n ≤ B.length → s.crc = none →
      contWithLength exec B n s = if n = 0 then .next s else .refused .unseeded)

/-- R113: the response that ends a call depends on `S`, `B` and the four variant parameters alone: not on the state before it, on
`IMPL`, or on `NOP`s interleaved anywhere. -/
def Obligations.CallIsDeterministic : Prop :=
  ∀ (p q : Params) (S : Word) (B : List Byte) (cs : List Instr) (s : State),
    p.poly = q.poly → p.refIn = q.refIn → p.refOut = q.refOut → p.xorOut = q.xorOut →
    (cs.filter fun i => decide (i ≠ .nop)) = callCommands S B →
      ∃ t, runBy (execWith q) cs s = .next t ∧ t.responses = s.responses ++ [crc16 p S B]

/-- R114: identity on the empty buffer, for every seed and every variant, as a function and as a call of two commands. -/
def Obligations.EmptyBufferIsIdentity : Prop :=
  (∀ (p : Params) (S : Word), crc16 p S [] = S) ∧
  (∀ (S : Word) (s : State), ∃ t, runBy exec (callCommands S []) s = .next t ∧ t.rsp = some S)

/-- R115: incremental composability, as a law of the function and in its three readings on the engine: two calls, one call
continued, and a `READ` in the middle. -/
def Obligations.CallsCompose : Prop :=
  (∀ (p : Params) (S : Word) (B1 B2 : List Byte), crc16 p (crc16 p S B1) B2 = crc16 p S (B1 ++ B2)) ∧
  (∀ (S : Word) (B1 B2 : List Byte) (s t : State) (v : Word),
    runBy exec (callCommands S B1) s = .next t → t.rsp = some v →
      ∃ u, runBy exec (callCommands v B2) t = .next u ∧ u.rsp = some (crc16 Config.params S (B1 ++ B2))) ∧
  (∀ (S : Word) (B1 B2 : List Byte) (s : State),
    ∃ u, runBy exec (.seed S :: (contCommands B1 ++ contCommands B2 ++ [.read])) s = .next u ∧
      u.rsp = some (crc16 Config.params S (B1 ++ B2))) ∧
  (∀ (S : Word) (B1 B2 : List Byte) (s : State),
    ∃ u, runBy exec (.seed S :: (contCommands B1 ++ [.read] ++ contCommands B2 ++ [.read])) s = .next u ∧
      u.responses = s.responses ++ [crc16 Config.params S B1, crc16 Config.params S (B1 ++ B2)])

/-- R116: `CONT B` on external state `E` leaves the external state `crc16(E, B)` and delivers no response; `CONT []` is no commands;
`CONT B1; CONT B2` is `CONT` of the concatenation. -/
def Obligations.ContFoldsIntoTheRunningState : Prop :=
  (∀ (B : List Byte) (s : State) (E : Word), externalState Config.params s = some E →
    ∃ t, runBy exec (contCommands B) s = .next t ∧
      externalState Config.params t = some (crc16 Config.params E B) ∧ t.responses = s.responses) ∧
  contCommands [] = [] ∧
  (∀ B1 B2 : List Byte, contCommands B1 ++ contCommands B2 = contCommands (B1 ++ B2))

/-- R117: a computation saved with `SAVE`, after which any commands whatever run, and resumed with `RESTORE` ends with the response
of the uninterrupted call. -/
def Obligations.SaveAndRestoreResume : Prop :=
  ∀ (S v : Word) (B1 B2 : List Byte) (between : List Instr) (s t u : State),
    runBy exec (.seed S :: (contCommands B1 ++ Pseudo.save.expand)) s = .next t → t.rsp = some v →
    runBy exec between t = .next u →
      ∃ w, runBy exec ((Pseudo.restore v).expand ++ contCommands B2 ++ [.read]) u = .next w ∧
        w.rsp = some (crc16 Config.params S (B1 ++ B2))

/-- R119 (the spec's derivation of the stronger statement): with `POLY` not zero, flipping any one bit of the buffer changes the
checksum. -/
def Obligations.SingleBitFlipIsDetected : Prop :=
  ∀ (p : Params) (S : Word) (B : List Byte) (k j : Nat), p.poly ≠ 0x0000#16 → k < B.length → j < 8 →
    crc16 p S (flipBit B k j) ≠ crc16 p S B

/-- R121: with `POLY = 0x0000` a `bitstep` shifts whatever the data, one byte leaves `shl16(r, 8)`, two or more leave zero, and the
checksum depends on the length alone. -/
def Obligations.ZeroPolyIgnoresTheData : Prop :=
  ∀ p : Params, p.poly = 0x0000#16 →
    (∀ (r : Word) (d : Bool), bitstep p.poly r d = shl16 r 1) ∧
    (∀ (r : Word) (b : Byte), foldbuf p r [b] = shl16 r 8) ∧
    (∀ (r : Word) (B : List Byte), 2 ≤ B.length → foldbuf p r B = 0x0000#16) ∧
    (∀ (S : Word) (B : List Byte), crc16 p S B = outTransform p (shl16 (inTransform p S) (8 * B.length)))

/-- R124: `crc16` is affine over GF(2) in seed and buffer, and linear with `XOROUT = 0x0000`. -/
def Obligations.CrcIsAffine : Prop :=
  ∀ (p : Params) (S1 S2 S3 : Word) (B1 B2 B3 : List Byte), B1.length = B2.length → B2.length = B3.length →
    (crc16 p S1 B1 ^^^ crc16 p S2 B2 ^^^ crc16 p S3 B3 =
      crc16 p (S1 ^^^ S2 ^^^ S3) (xorBuffers (xorBuffers B1 B2) B3)) ∧
    (p.xorOut = 0x0000#16 → crc16 p S1 B1 ^^^ crc16 p S2 B2 = crc16 p (S1 ^^^ S2) (xorBuffers B1 B2))

/-- R125: for a fixed buffer the checksum is a bijection of the seed exactly when `POLY[0] = 1` or the buffer is empty. -/
def Obligations.SeedIsRecoverableExactlyForOddPoly : Prop :=
  ∀ (p : Params) (B : List Byte),
    Function.Bijective (fun S => crc16 p S B) ↔ p.poly.getLsbD 0 = true ∨ B = []

/-! ## Exceptions, reset, the whole machine (60_exceptions.md, 70_reset_and_hazards.md) -/

/-- R132: the two refusals and no other stop. A command is refused exactly when it is `FOLD` or `READ` and `CRC` holds no value, and
then as `unseeded`. A call is refused exactly when its length exceeds its buffer, and then as `lengthMismatch`; so is `CONT`, which
is otherwise refused, as `unseeded`, exactly when it has a byte to fold and `CRC` holds no value. Where both of R132's rows apply to
a `CONT`, that `lengthMismatch` is the one raised is the model's choice (log entry 10). -/
def Obligations.OnlyTheTwoRefusals : Prop :=
  (∀ (i : Instr) (s : State) (q : Refusal),
    exec i s = .refused q ↔ q = .unseeded ∧ s.crc = none ∧ (i = .read ∨ ∃ b, i = .fold b)) ∧
  (∀ (S : Word) (B : List Byte) (n : Nat) (s : State) (q : Refusal),
    (callWithLength exec S B n s = .refused q ↔ q = .lengthMismatch ∧ B.length < n) ∧
    (contWithLength exec B n s = .refused q ↔
      (q = .lengthMismatch ∧ B.length < n) ∨ (q = .unseeded ∧ n ≤ B.length ∧ 0 < n ∧ s.crc = none)))

/-- R130: no exception, under any command, operand, state and (in any engine) any value of the parameters: an execution ends in a
next state or in a refusal, and with a value in `CRC` always in a next state. -/
def Obligations.NoExceptionEver : Prop :=
  ∀ (p : Params) (i : Instr) (s : State),
    (∀ f, execWith p i s ≠ .fault f ∧ exec i s ≠ .fault f ∧ step s ≠ .fault f) ∧
    (s.crc.isSome = true → ∃ t, execWith p i s = .next t)

/-- R150, R134: at a moment at which `rst` is asserted, at once or in mid-command, whatever is offered: `CRC` holds no value
afterwards, `cmd_ready = 0`, no response is delivered, and nothing else changes. The model's own part: a reset in mid-command is one
step (log entry 7), it wins over the refusal of an unseeded `FOLD` or `READ` accepted at that moment (entry 17), the record of
responses outlasts it (entry 6), and the moment leaves the host's schedule (entry 3). -/
def Obligations.ResetWinsAndClearsTheRegister : Prop :=
  State.reset.crc = none ∧ State.reset.cmdReady = false ∧ State.reset.rsp = none ∧
  ∀ (s : State) (m : Moment) (rest : List Moment), s.inputs = m :: rest → m.resets = true →
    step s = .next { s with crc := none, cmdReady := false, rsp := none, inputs := rest }

/-- R21, R152: after reset `CRC` holds no value; before the first `SEED`, `NOP` and `SEED` are defined and `FOLD` and `READ` are
refused; once seeded the engine stays so until the next reset, in every command and in every moment of the ports. -/
def Obligations.SeededUntilTheNextReset : Prop :=
  State.reset.crc = none ∧
  (∀ s : State, s.crc = none →
    exec .nop s = .next s ∧
    (∀ S : Word, exec (.seed S) s = .next { s with crc := some (inTransform Config.params S) }) ∧
    (∀ b : Byte, exec (.fold b) s = .refused .unseeded) ∧ exec .read s = .refused .unseeded) ∧
  (∀ (i : Instr) (s t : State), s.crc.isSome = true → exec i s = .next t → t.crc.isSome = true) ∧
  (∀ s t : State, s.crc.isSome = true → (∀ m, s.inputs.head? = some m → m.resets = false) → step s = .next t →
    t.crc.isSome = true)

/-- R153: the host's one duty before the rules give meaning: a command sequence runs to its end exactly when no `FOLD` or `READ` in
it stands before a `SEED`, unless the register held a value at the start. -/
def Obligations.RunsCompleteExactlyWhenSeeded : Prop :=
  ∀ (cs : List Instr) (s : State),
    (∃ t, runBy exec cs s = .next t) ↔ WellSeeded s.crc.isSome cs = true

/-- R160 (the model's reading, log entry 8): with no moment left the engine waits; nothing but `rsp_valid` changes, and what was
delivered stays on record. -/
def Obligations.EngineWaitsWhenTheScheduleEnds : Prop :=
  ∀ s : State, s.inputs = [] → step s = .next { s with rsp := none }

/-- An invariant every step keeps: a valid response port shows the external state, which is also the response delivered last (R63,
R85), and the engine was then ready (R61); and a step takes exactly one moment from the schedule. When the port falls, what the
schedule is and which `cmd_ready` is shown are the model's (log entries 3, 5, 15). -/
def Obligations.StepKeepsThePortInvariant : Prop :=
  ∀ s t : State, ResponseInv Config.params s → step s = .next t →
    ResponseInv Config.params t ∧ t.inputs = s.inputs.tail

/-- The invariant of `StepKeepsThePortInvariant` holds at reset: R150's `rsp_valid = 0`. -/
def Obligations.ResetMeetsThePortInvariant : Prop :=
  State.reset.rsp = none ∧ ResponseInv Config.params State.reset
end

