-- ==== Sys2Proof/Laws/State.lean ====
section
/-! SUPPORT. One lemma per field per update of the state, true by unfolding, and the fields of the reset state. -/

namespace Sys2Proof.Machine

@[simp] theorem State.writeCrc_crc (s : State) (v : Word) : (s.writeCrc v).crc = some v := rfl
@[simp] theorem State.writeCrc_cmdReady (s : State) (v : Word) : (s.writeCrc v).cmdReady = s.cmdReady := rfl
@[simp] theorem State.writeCrc_rsp (s : State) (v : Word) : (s.writeCrc v).rsp = s.rsp := rfl
@[simp] theorem State.writeCrc_inputs (s : State) (v : Word) : (s.writeCrc v).inputs = s.inputs := rfl
@[simp] theorem State.writeCrc_responses (s : State) (v : Word) : (s.writeCrc v).responses = s.responses := rfl

@[simp] theorem State.respond_crc (s : State) (v : Word) : (s.respond v).crc = s.crc := rfl
@[simp] theorem State.respond_cmdReady (s : State) (v : Word) : (s.respond v).cmdReady = s.cmdReady := rfl
@[simp] theorem State.respond_rsp (s : State) (v : Word) : (s.respond v).rsp = some v := rfl
@[simp] theorem State.respond_inputs (s : State) (v : Word) : (s.respond v).inputs = s.inputs := rfl
@[simp] theorem State.respond_responses (s : State) (v : Word) : (s.respond v).responses = s.responses ++ [v] := rfl

@[simp] theorem State.lowerRsp_crc (s : State) : (s.lowerRsp).crc = s.crc := rfl
@[simp] theorem State.lowerRsp_cmdReady (s : State) : (s.lowerRsp).cmdReady = s.cmdReady := rfl
@[simp] theorem State.lowerRsp_rsp (s : State) : (s.lowerRsp).rsp = none := rfl
@[simp] theorem State.lowerRsp_inputs (s : State) : (s.lowerRsp).inputs = s.inputs := rfl
@[simp] theorem State.lowerRsp_responses (s : State) : (s.lowerRsp).responses = s.responses := rfl

@[simp] theorem State.driveReady_crc (s : State) (b : Bool) : (s.driveReady b).crc = s.crc := rfl
@[simp] theorem State.driveReady_cmdReady (s : State) (b : Bool) : (s.driveReady b).cmdReady = b := rfl
@[simp] theorem State.driveReady_rsp (s : State) (b : Bool) : (s.driveReady b).rsp = s.rsp := rfl
@[simp] theorem State.driveReady_inputs (s : State) (b : Bool) : (s.driveReady b).inputs = s.inputs := rfl
@[simp] theorem State.driveReady_responses (s : State) (b : Bool) : (s.driveReady b).responses = s.responses := rfl

@[simp] theorem State.resetEngine_crc (s : State) : (s.resetEngine).crc = none := rfl
@[simp] theorem State.resetEngine_cmdReady (s : State) : (s.resetEngine).cmdReady = false := rfl
@[simp] theorem State.resetEngine_rsp (s : State) : (s.resetEngine).rsp = none := rfl
@[simp] theorem State.resetEngine_inputs (s : State) : (s.resetEngine).inputs = s.inputs := rfl
@[simp] theorem State.resetEngine_responses (s : State) : (s.resetEngine).responses = s.responses := rfl

@[simp] theorem State.offer_crc (s : State) (w : CommandWord) : (s.offer w).crc = s.crc := rfl
@[simp] theorem State.offer_cmdReady (s : State) (w : CommandWord) : (s.offer w).cmdReady = s.cmdReady := rfl
@[simp] theorem State.offer_rsp (s : State) (w : CommandWord) : (s.offer w).rsp = s.rsp := rfl
@[simp] theorem State.offer_inputs (s : State) (w : CommandWord) : (s.offer w).inputs = Moment.accepting w :: s.inputs := rfl
@[simp] theorem State.offer_responses (s : State) (w : CommandWord) : (s.offer w).responses = s.responses := rfl

@[simp] theorem State.reset_crc : State.reset.crc = none := rfl
@[simp] theorem State.reset_cmdReady : State.reset.cmdReady = false := rfl
@[simp] theorem State.reset_rsp : State.reset.rsp = none := rfl
@[simp] theorem State.reset_inputs : State.reset.inputs = [] := rfl
@[simp] theorem State.reset_responses : State.reset.responses = [] := rfl

/-- A second fall of `rsp_valid` changes nothing. -/
@[simp] theorem State.lowerRsp_lowerRsp (s : State) : s.lowerRsp.lowerRsp = s.lowerRsp := rfl

end Sys2Proof.Machine
end

