-- ==== Sys2Proof/Laws/Ops.lean ====
section
/-! SUPPORT. What each shared operation can do, said once; proofs cite these lemmas instead of unfolding the operation. -/

namespace Sys2Proof.Machine

/-- A read of a register that holds a value goes on with it. -/
theorem State.readCrc_some {s : State} {r : Word} (h : s.crc = some r) (use : Word → State) :
    s.readCrc use = .next (use r) := by simp [State.readCrc, h]

/-- A read of a register that holds no value is refused (R152). -/
theorem State.readCrc_none {s : State} (h : s.crc = none) (use : Word → State) :
    s.readCrc use = .refused .unseeded := by simp [State.readCrc, h]

/-- Everything a read that goes on can do. -/
theorem State.readCrc_next {s t : State} {use : Word → State} (h : s.readCrc use = .next t) :
    ∃ r, s.crc = some r ∧ t = use r := by
  cases hc : s.crc with
  | none => rw [State.readCrc_none hc] at h; cases h
  | some r => rw [State.readCrc_some hc] at h; cases h; exact ⟨r, rfl, rfl⟩

/-- The one reason for which a read is refused. -/
theorem State.readCrc_refused {s : State} {use : Word → State} {q : Refusal} :
    s.readCrc use = .refused q ↔ s.crc = none ∧ q = .unseeded := by
  cases hc : s.crc with
  | none => rw [State.readCrc_none hc]; simp [eq_comm]
  | some r => rw [State.readCrc_some hc]; simp

@[simp] theorem andThen_next {σ τ : Type} (s : σ) (f : σ → Host.Outcome τ Fault Refusal) :
    andThen (.next s) f = f s := rfl

@[simp] theorem andThen_refused {σ τ : Type} (q : Refusal) (f : σ → Host.Outcome τ Fault Refusal) :
    andThen (.refused q) f = .refused q := rfl

theorem andThen_assoc {σ τ υ : Type} (x : Host.Outcome σ Fault Refusal) (f : σ → Host.Outcome τ Fault Refusal)
    (g : τ → Host.Outcome υ Fault Refusal) : andThen (andThen x f) g = andThen x fun a => andThen (f a) g := by
  cases x <;> rfl

/-- Everything a sequence that goes on can do. -/
theorem andThen_eq_next {σ τ : Type} {x : Host.Outcome σ Fault Refusal} {f : σ → Host.Outcome τ Fault Refusal} {t : τ} :
    andThen x f = .next t ↔ ∃ a, x = .next a ∧ f a = .next t := by
  cases x <;> simp [andThen]

@[simp] theorem runBy_nil (ex : Instr → State → Result) (s : State) : runBy ex [] s = .next s := rfl

theorem runBy_cons (ex : Instr → State → Result) (i : Instr) (is : List Instr) (s : State) :
    runBy ex (i :: is) s = andThen (ex i s.lowerRsp) (runBy ex is) := rfl

@[simp] theorem Moment.accepting_accepted (w : CommandWord) : (Moment.accepting w).accepted = some w := rfl

@[simp] theorem Moment.accepting_cmdReady (w : CommandWord) : (Moment.accepting w).cmdReady = true := rfl

/-- A word is accepted only at a moment at which the engine is ready. -/
theorem Moment.cmdReady_of_accepted {m : Moment} {w : CommandWord} (h : m.accepted = some w) : m.cmdReady = true := by
  unfold Moment.accepted at h
  cases hr : m.cmdReady with
  | true => rfl
  | false => simp [hr] at h

@[simp] theorem Moment.accepting_resets (w : CommandWord) : (Moment.accepting w).resets = false := rfl

/-- Everything a moment can do: reset, execution of the accepted word, or nothing. -/
theorem serve_cases (ex : Instr → State → Result) (m : Moment) (s : State) :
    (m.resets = true ∧ serve ex m s = .next s.resetEngine) ∨
    (m.resets = false ∧ ∃ w, m.accepted = some w ∧ serve ex m s = ex (decode w) (s.driveReady m.cmdReady)) ∨
    (m.resets = false ∧ m.accepted = none ∧ serve ex m s = .next (s.driveReady m.cmdReady)) := by
  unfold serve
  cases hr : m.resets with
  | true => exact .inl ⟨rfl, rfl⟩
  | false =>
    cases ha : m.accepted with
    | none => exact .inr (.inr ⟨rfl, rfl, rfl⟩)
    | some w => exact .inr (.inl ⟨rfl, w, rfl, rfl⟩)

/-- Everything a step at the ports can do: wait, or serve the next moment. -/
theorem stepBy_cases (ex : Instr → State → Result) (s : State) :
    (s.inputs = [] ∧ stepBy ex s = .next s.lowerRsp) ∨
    ∃ m rest, s.inputs = m :: rest ∧ stepBy ex s = serve ex m { s.lowerRsp with inputs := rest } := by
  unfold stepBy
  cases hi : s.inputs with
  | nil => exact .inl ⟨rfl, rfl⟩
  | cons m rest => exact .inr ⟨m, rest, rfl, rfl⟩

/-- The host's run, one step at a time. -/
theorem core_run_succ (n : Nat) (s : State) :
    Host.Core.run Sys2Proof.core (n + 1) s = andThen (step s) fun t => Host.Core.run Sys2Proof.core n t := by
  have h : Host.Core.step Sys2Proof.core s = step s := rfl
  simp only [Host.Core.run, h]
  cases step s <;> rfl

end Sys2Proof.Machine
end

