-- ==== Sys2Proof/Laws/Commands.lean ====
section
/-! SUPPORT. No command reads the schedule or `cmd_ready`: a change of either passes through an execution. -/

namespace Sys2Proof.Machine

theorem exec_cmdReady (i : Instr) (s : State) (b : Bool) :
    exec i { s with cmdReady := b } = andThen (exec i s) fun t => .next { t with cmdReady := b } := by
  obtain ⟨c, _, _, _, _⟩ := s
  cases i <;> cases c <;> rfl

theorem exec_inputs (i : Instr) (s : State) (ms : List Moment) :
    exec i { s with inputs := ms } = andThen (exec i s) fun t => .next { t with inputs := ms } := by
  obtain ⟨c, _, _, _, _⟩ := s
  cases i <;> cases c <;> rfl

end Sys2Proof.Machine
end

