-- ==== Sys2Proof/Laws/Encoding.lean ====
section
/-! SUPPORT. A command word is its field `OP` above its field `ARG` (R64); the canonical encodings in that form. -/

namespace Sys2Proof

/-- The word with the given fields `OP` and `ARG` (R64). -/
theorem fields_getLsbD (x : BitVec 2) (a : Word) (i : Nat) :
    (show CommandWord from x ++ a).getLsbD i = if i < 16 then a.getLsbD i else x.getLsbD (i - 16) :=
  BitVec.getLsbD_append

theorem fields_toNat (x : BitVec 2) (a : Word) : (show CommandWord from x ++ a).toNat = x.toNat * 65536 + a.toNat := by
  have h : (show CommandWord from x ++ a).toNat = x.toNat <<< 16 ||| a.toNat := BitVec.toNat_append x a
  rwa [← Nat.shiftLeft_add_eq_or_of_lt a.isLt, Nat.shiftLeft_eq] at h

theorem opField_getLsbD (w : CommandWord) (i : Nat) (h : i < 2) : (opField w).getLsbD i = w.getLsbD (16 + i) := by
  simp [opField, h]

@[simp] theorem opField_fields (x : BitVec 2) (a : Word) : opField (show CommandWord from x ++ a) = x := by
  apply BitVec.eq_of_getLsbD_eq
  intro i hi
  rw [opField_getLsbD _ _ hi, fields_getLsbD]
  simp

theorem encode_seed_fields (S : Word) : encode (.seed S) = show CommandWord from 1#2 ++ S := by
  apply BitVec.eq_of_toNat_eq
  rw [fields_toNat]
  have := S.isLt
  simp [encode, zext18]
  omega

theorem encode_fold_fields (b : Byte) : encode (.fold b) = show CommandWord from 2#2 ++ (b.setWidth 16 : Word) := by
  apply BitVec.eq_of_toNat_eq
  rw [fields_toNat]
  have := b.isLt
  simp [encode, zext18]
  omega

/-- The mask `0x30000` of every row of the opcode map keeps the field `OP` alone. -/
theorem opMask_fields (x : BitVec 2) (a : Word) :
    (show CommandWord from x ++ a) &&& 0x30000#18 = show CommandWord from x ++ 0#16 := by
  apply BitVec.eq_of_getLsbD_eq
  intro i hi
  have hz : ∀ j, j < 18 → (0x30000#18).getLsbD j = decide (16 ≤ j) := by decide
  rw [BitVec.getLsbD_and, hz i hi, fields_getLsbD, fields_getLsbD]
  by_cases h : i < 16
  · simp [h]
  · simp [h]
    omega

end Sys2Proof
end

