-- ==== Sys2Proof/Laws/Instances.lean ====
section
/-! SUPPORT. What an activity of one instance can do to it and to the system, said once. -/

namespace Sys2Proof.Machine

/-- An instance that has been refused does nothing more (U1). -/
theorem Engine.act_of_refused {e : Engine} {q : Refusal} (h : e.refusal = some q) (a : Activity) : e.act a = e := by
  simp [Engine.act, h]

/-- An instance that has not been refused stands after an activity as the activity's outcome says. -/
theorem Engine.act_outcome {e : Engine} (h : e.refusal = none) (a : Activity) :
    (e.act a).outcome = a.outcome e.params e.state := by
  simp only [Engine.act, h]
  cases a.outcome e.params e.state with
  | next s => simp [Engine.record, Engine.outcome, h]
  | fault f => exact nomatch f
  | refused q => rfl

/-- No activity changes the constants of an instance (R26). -/
@[simp] theorem Engine.act_params (e : Engine) (a : Activity) : (e.act a).params = e.params := by
  unfold Engine.act
  split
  · cases a.outcome e.params e.state with
    | next s => rfl
    | fault f => exact nomatch f
    | refused q => rfl
  · rfl

@[simp] theorem Engine.run_nil (e : Engine) : e.run [] = e := rfl

@[simp] theorem Engine.run_cons (e : Engine) (a : Activity) (as : List Activity) : e.run (a :: as) = (e.act a).run as := rfl

@[simp] theorem actAt_length (es : List Engine) (k : Nat) (a : Activity) : (actAt es k a).length = es.length := by
  simp [actAt]

/-- An activity of the instance at place `k` is performed by it and by no other. -/
theorem actAt_getElem? (es : List Engine) (k j : Nat) (a : Activity) :
    (actAt es k a)[j]? = if k = j then (es[j]?).map (·.act a) else es[j]? := by
  unfold actAt
  rw [List.getElem?_modify]
  split <;> cases es[j]? <;> rfl

theorem runInterleaved_cons (c : Nat × Activity) (cs : List (Nat × Activity)) (es : List Engine) :
    runInterleaved (c :: cs) es = runInterleaved cs (actAt es c.1 c.2) := rfl

theorem streamOf_cons (k : Nat) (c : Nat × Activity) (cs : List (Nat × Activity)) :
    streamOf k (c :: cs) = if c.1 = k then c.2 :: streamOf k cs else streamOf k cs := by
  unfold streamOf
  by_cases h : c.1 = k <;> simp [h]

end Sys2Proof.Machine
end

