-- ==== Sys2Proof/Laws/PerInstr.lean ====
section
/-! SUPPORT. Statements made per instruction. Family `MatchesRow`: a command is well formed and its canonical word belongs to the
row of the opcode map that bears its mnemonic (30_encoding.md section 4, R72). -/

namespace Sys2Proof.Laws

/-- The command is well formed, and its canonical word belongs to the row of its mnemonic. -/
def MatchesRow.Statement (i : Instr) : Prop :=
  i.wellFormed = true ∧ ∃ row ∈ opcodeTable, row.mnemonic = mnemonicOf i ∧ rowMatches row (encode i) = true

theorem MatchesRow.nop : MatchesRow.Statement .nop := by
  unfold MatchesRow.Statement
  decide

theorem MatchesRow.seed (S : Word) : MatchesRow.Statement (.seed S) := by
  refine ⟨rfl, ⟨"SEED", 0x10000#18, 0x30000#18⟩, by decide, rfl, ?_⟩
  rw [encode_seed_fields, rowMatches, opMask_fields]
  decide

theorem MatchesRow.fold (b : Byte) : MatchesRow.Statement (.fold b) := by
  refine ⟨rfl, ⟨"FOLD", 0x20000#18, 0x30000#18⟩, by decide, rfl, ?_⟩
  rw [encode_fold_fields, rowMatches, opMask_fields]
  decide

theorem MatchesRow.read : MatchesRow.Statement .read := by
  unfold MatchesRow.Statement
  decide

end Sys2Proof.Laws
end

