-- ==== Sys2Proof/Laws/Reduction.lean ====
section
/-! SUPPORT. Small lemmas of the reduction's list recursions, so that no proof unfolds a fold. -/

namespace Sys2Proof.Machine

@[simp] theorem bitsteps_nil (poly r : Word) : bitsteps poly r [] = r := rfl

theorem bitsteps_cons (poly r : Word) (d : Bool) (ds : List Bool) :
    bitsteps poly r (d :: ds) = bitsteps poly (bitstep poly r d) ds := rfl

theorem bitsteps_append (poly r : Word) (ds es : List Bool) :
    bitsteps poly r (ds ++ es) = bitsteps poly (bitsteps poly r ds) es := by simp [bitsteps, List.foldl_append]

@[simp] theorem bitsInFoldOrder_length (refIn : Bool) (b : Byte) : (bitsInFoldOrder refIn b).length = 8 := by
  cases refIn <;> rfl

@[simp] theorem foldbuf_nil (p : Params) (r : Word) : foldbuf p r [] = r := rfl

theorem foldbuf_cons (p : Params) (r : Word) (b : Byte) (B : List Byte) :
    foldbuf p r (b :: B) = foldbuf p (foldbyte p.poly p.refIn r b) B := rfl

theorem foldbuf_append (p : Params) (r : Word) (B C : List Byte) :
    foldbuf p r (B ++ C) = foldbuf p (foldbuf p r B) C := by simp [foldbuf, List.foldl_append]

/-- Folding a buffer is folding all its bits, byte after byte, each byte in fold order. -/
theorem foldbuf_eq_bitsteps (p : Params) (B : List Byte) :
    ∀ r, foldbuf p r B = bitsteps p.poly r (B.flatMap (bitsInFoldOrder p.refIn)) := by
  induction B with
  | nil => intro r; rfl
  | cons b B ih => intro r; rw [foldbuf_cons, List.flatMap_cons, bitsteps_append, ih]; rfl

end Sys2Proof.Machine
end

