-- ==== Sys2Proof/Tests/Slice0.lean ====
section
/-! SUPPORT. Small tests. Expected values come from spec/95_test_vectors.md and the examples of the rules, never from the model; each
test names its source. `Config.params` has no value, so tests of concrete checksums name a variant. The second half shows, for every
statement with hypotheses, that something meets them. -/

namespace Sys2Proof.Tests

open Sys2Proof.Machine Sys2Proof.Safety

/-- Parameters of CRC-16/XMODEM (95_test_vectors.md section 4). -/
def xmodem : Params := { poly := 0x1021#16, refIn := false, refOut := false, xorOut := 0x0000#16, impl := .bitSerial }

/-- Parameters of CRC-16/IBM-SDLC, X-25 (95_test_vectors.md section 4), table-driven. -/
def x25 : Params := { poly := 0x1021#16, refIn := true, refOut := true, xorOut := 0xFFFF#16, impl := .table }

/-- Parameters of 95_test_vectors.md section 8.4, for which `In` and `Out` differ. -/
def odd : Params := { poly := 0x8005#16, refIn := false, refOut := true, xorOut := 0x0001#16, impl := .table }

/-- An engine whose register holds `r`. -/
def holding (r : Word) : State := { State.reset with crc := some r }

/-- The register and the responses of an outcome, if it is a next state. -/
def seen : Result → Option (Option Word × List Word)
  | .next s => some (s.crc, s.responses)
  | _ => none

/-- Is an outcome the refusal `unseeded`? -/
def isUnseeded : Result → Bool
  | .refused .unseeded => true
  | _ => false

/-! ## Well-formedness: ill-formed terms that each check refuses (R71) -/

theorem test_seed_literal_range : seedLiteralOk 65535 = true ∧ seedLiteralOk 65536 = false := by decide

theorem test_byte_literal_range : byteLiteralOk 255 = true ∧ byteLiteralOk 256 = false := by decide

theorem test_printable_range : printableAscii 'A' = true ∧ printableAscii (Char.ofNat 0x7F) = false ∧
    printableAscii (Char.ofNat 0x1F) = false := by decide

theorem test_canonical_word : isCanonical 0x20031#18 = true ∧ isCanonical 0x2AB31#18 = false ∧
    isCanonical 0x0BEEF#18 = false ∧ isCanonical 0x1BEEF#18 = true := by decide

/-! ## Decoding and encoding: words written out bit by bit from R64; 95_test_vectors.md section 2 -/

theorem test_decode_nop : decode 0b00_0000_0000_0000_0000#18 = .nop ∧ decode 0b00_1011_1110_1110_1111#18 = .nop := by decide

theorem test_decode_seed : decode 0b01_0001_0010_0011_0100#18 = .seed 0x1234#16 ∧
    decode 0b01_1111_1111_1111_1111#18 = .seed 0xFFFF#16 := by decide

theorem test_decode_fold : decode 0b10_0000_0000_0011_0001#18 = .fold 0x31#8 ∧
    decode 0b10_1111_1111_0000_0000#18 = .fold 0x00#8 := by decide

theorem test_decode_read : decode 0b11_0000_0000_0000_0000#18 = .read ∧ decode 0b11_1111_1111_1111_1111#18 = .read := by decide

/-- R72's examples, and `encode(decode(0x2AB31)) = 0x20031`. -/
theorem test_encode : encode (.seed 0xFFFF#16) = 0x1FFFF#18 ∧ encode (.fold 0xFF#8) = 0x200FF#18 ∧
    encode (decode 0x2AB31#18) = 0x20031#18 ∧ encode (decode 0x0BEEF#18) = 0x00000#18 := by decide

/-- "Words wider than 18 bits do not exist on the port." -/
theorem test_decode_table_word : decodeTableWord 24 0x20031 = some (.fold 0x31#8) ∧ decodeTableWord 24 0x40000 = none := by decide

/-! ## Notation and the reduction -/

set_option maxRecDepth 20000 in
/-- R13's examples. -/
theorem test_reflect : reflect16 0x8005#16 = 0xA001#16 ∧ reflect16 0x1021#16 = 0x8408#16 ∧ reflect8 0x31#8 = 0x8C#8 := by decide

set_option maxRecDepth 20000 in
/-- R91's examples. -/
theorem test_bitstep : bitstep 0x1021#16 0x8000#16 false = 0x1021#16 ∧ bitstep 0x1021#16 0x8000#16 true = 0x0000#16 ∧
    bitstep 0x1021#16 0x1021#16 true = 0x3063#16 ∧ bitstep 0x1021#16 0xFFFF#16 false = 0xEFDF#16 := by decide

set_option maxRecDepth 20000 in
/-- 95_test_vectors.md section 5.2: bit order, corner cases, odd and zero polynomials, in both strategies. -/
theorem test_foldbyte : foldbyte 0x1021#16 false 0x0000#16 0x31#8 = 0x2672#16 ∧
    foldbyte 0x8005#16 true 0x0000#16 0x31#8 = 0x832B#16 ∧ foldbyte 0x1021#16 false 0xFFFF#16 0x00#8 = 0xE1F0#16 ∧
    foldbyteTable 0x1021#16 false 0x2672#16 0x32#8 = 0x20B5#16 ∧ foldbyteTable 0x8005#16 true 0x832B#16 0x32#8 = 0x29A2#16 ∧
    foldbyteTable 0x0000#16 true 0xABCD#16 0xEF#8 = 0xCD00#16 := by decide

set_option maxRecDepth 20000 in
/-- 95_test_vectors.md section 6: spot checks of the tables. -/
theorem test_tables : tblEntry 0x1021#16 0x14#8 = 0x52B5#16 ∧ tblEntry 0x8005#16 0x8C#8 = 0x832B#16 ∧
    rtblEntry 0x8005#16 0x31#8 = 0xD4C1#16 ∧ rtblEntry 0x1021#16 0x80#8 = 0x8408#16 := by decide

set_option maxRecDepth 20000 in
/-- R98's example. -/
theorem test_right_shift : foldbyteR 0x8005#16 0x0000#16 0x31#8 = 0xD4C1#16 ∧
    foldbyteRTable 0x8005#16 0x0000#16 0x31#8 = 0xD4C1#16 := by decide

set_option maxRecDepth 20000 in
/-- R82's and R83's examples for `REFOUT = true`, `XOROUT = 0x0001`. -/
theorem test_transforms_differ : inTransform odd 0x1234#16 = 0xAC48#16 ∧ outTransform odd 0x1234#16 = 0x2C49#16 := by decide

set_option maxRecDepth 20000 in
/-- 95_test_vectors.md section 7: composability under `REFIN != REFOUT`. -/
theorem test_crc16_odd : crc16 odd 0x1234#16 [0x31#8, 0x32#8, 0x33#8] = 0xD0E8#16 := by decide

/-- The buffer "123456789" (95_test_vectors.md). -/
def checkString : List Byte := [0x31#8, 0x32#8, 0x33#8, 0x34#8, 0x35#8, 0x36#8, 0x37#8, 0x38#8, 0x39#8]

set_option maxRecDepth 20000 in
/-- R120, 95_test_vectors.md section 4: known vectors of an unreflected and of a reflected, masked variant. -/
theorem test_known_vectors : crc16 xmodem 0x0000#16 checkString = 0x31C3#16 ∧ crc16 xmodem 0xFFFF#16 checkString = 0x29B1#16 ∧
    crc16 x25 0x0000#16 checkString = 0x906E#16 := by decide

/-! ## The commands, one step each: 95_test_vectors.md sections 3, 5.2 and 8 -/

theorem test_nop : seen (execWith x25 .nop (holding 0x1234#16)) = some (some 0x1234#16, []) ∧
    seen (exec .nop State.reset) = some (none, []) := by decide

set_option maxRecDepth 20000 in
theorem test_seed : seen (execWith x25 (.seed 0x0000#16) State.reset) = some (some 0xFFFF#16, []) ∧
    seen (execWith odd (.seed 0x1234#16) (holding 0xABCD#16)) = some (some 0xAC48#16, []) := by decide

set_option maxRecDepth 20000 in
theorem test_fold : seen (execWith xmodem (.fold 0xA5#8) (holding 0x1234#16)) = some (some 0xE33C#16, []) ∧
    seen (execWith x25 (.fold 0x31#8) (holding 0xFFFF#16)) = some (some 0xB1F4#16, []) := by decide

theorem test_fold_unseeded : isUnseeded (exec (.fold 0x31#8) State.reset) = true := by decide

set_option maxRecDepth 20000 in
theorem test_read : seen (execWith x25 .read (holding 0x89F6#16)) = some (some 0x89F6#16, [0x906E#16]) ∧
    seen (execWith odd .read (holding 0xAC48#16)) = some (some 0xAC48#16, [0x1234#16]) := by decide

theorem test_read_unseeded : isUnseeded (exec .read State.reset) = true := by decide

/-! ## Steps at the ports -/

/-- R61: the engine drives `cmd_ready = 0` while `rst` is asserted, whatever else holds, and while it is busy. -/
theorem test_cmd_ready : (Moment.accepting 0x00000#18).cmdReady = true ∧
    Moment.cmdReady { Moment.accepting 0x00000#18 with rst := .asserted } = false ∧
    Moment.cmdReady { Moment.accepting 0x00000#18 with busy := true } = false := by decide

set_option maxRecDepth 20000 in
/-- A word offered with `withFetchWord` runs at the next step, from reset (R62). -/
theorem test_offered_word_runs : seen (stepWith x25 (State.reset.withFetchWord 24 0x10000)) = some (some 0xFFFF#16, []) := by decide

/-- With `cmd_ready = 0` nothing is accepted (R61). -/
theorem test_not_ready : seen (stepWith x25 { holding 0x1234#16 with
    inputs := [{ Moment.accepting 0x10000#18 with busy := true }] }) =
      some (some 0x1234#16, []) := by decide

/-- A `READ` cut by `rst` gets no response, and the register holds no value (R151). -/
theorem test_read_cut_by_reset : seen (stepWith x25 { holding 0x1234#16 with
    inputs := [{ Moment.accepting 0x30000#18 with rst := .assertedMidCommand }] }) = some (none, []) := by decide

/-! ## The assembler (R71) -/

/-- The lines `SEED 0x1234 ; note` and `FOLD 49`. -/
theorem test_assemble_commands : (assemble [['S', 'E', 'E', 'D', ' ', '0', 'x', '1', '2', '3', '4', ' ', ';', ' ', 'n'],
    ['F', 'O', 'L', 'D', ' ', '4', '9']]).toOption = some [0x11234#18, 0x20031#18] := by decide

/-- The line `CRC16 0x0000, "12"`: the words of R110's example. -/
theorem test_assemble_call : (assembleLine ['C', 'R', 'C', '1', '6', ' ', '0', 'x', '0', '0', '0', '0', ',', ' ', '"', '1', '2',
    '"']).toOption = some [0x10000#18, 0x20031#18, 0x20032#18, 0x30000#18] := by decide

/-- The line `CONT` with the braced list `0x31, 0x32`, and with the empty one. -/
theorem test_assemble_braces : (assembleLine (['C', 'O', 'N', 'T', ' ', openBraceChar] ++ ['0', 'x', '3', '1', ',', ' ', '0', 'x',
    '3', '2'] ++ [closeBraceChar])).toOption = some [0x20031#18, 0x20032#18] ∧
    (assembleLine (['C', 'O', 'N', 'T', ' ', openBraceChar, closeBraceChar])).toOption = some [] := by decide

/-- `FOLD 256` is an assembly error. -/
theorem test_assemble_out_of_range : (match assembleLine ['F', 'O', 'L', 'D', ' ', '2', '5', '6'] with
    | .error .literalOutOfRange => true
    | _ => false) = true := by decide

/-! ## Hypotheses that something meets -/

/-- `ReflectionReversesBits`, `BitstepShiftsWithTaps`, `InTransformOnBits`, `OutTransformInvertsIn`: bit numbers at both ends, and an
engine whose `In` is the identity. -/
theorem test_bounds_met : (0 < 16 ∧ 15 < 16) ∧ (0 < 8 ∧ 7 < 8) ∧ xmodem.refOut = false ∧ xmodem.xorOut = 0#16 := by decide

/-- `NopAndSeedDoNotReadTheRegister`, `SeedLoadsTheRegister`: two states that differ in the register only, one of them seeded. -/
theorem test_sameButCrc_met : SameButCrc State.reset (holding 0x1234#16) ∧ (holding 0x1234#16).crc = some 0x1234#16 :=
  ⟨⟨rfl, rfl, rfl, rfl⟩, rfl⟩

/-- `CommandsLeaveTheRestUnchanged`, `OneResponsePerRead`, `ResponsePortFallsAfterRead`: executions that go on, of `READ` and of
another command; a run that ends in a `READ`. -/
theorem test_next_met : (∃ t, exec .read (holding 0#16) = .next t) ∧ (∃ t, exec .nop State.reset.lowerRsp = .next t) ∧
    (∃ t, runBy exec ([.seed 0#16] ++ [.read]) State.reset = .next t) := ⟨⟨_, rfl⟩, ⟨_, rfl⟩, ⟨_, rfl⟩⟩

/-- `ResponsePortFallsAfterRead`, last clause: a step after which `rsp_valid = 1`. -/
theorem test_valid_response_met : ∃ t, step ((holding 0#16).withFetchWord 24 0x30000) = .next t ∧ t.rsp.isSome = true :=
  ⟨_, rfl, rfl⟩

/-- `CommandsActOnTheExternalState`, `ContFoldsIntoTheRunningState`: a state with an external state. -/
theorem test_external_met :
    externalState Config.params (holding 0#16) = some (outTransform Config.params 0#16) := rfl

/-- `HandshakeDecidesAcceptance`, second clause: a moment without reset at which nothing is accepted. -/
theorem test_idle_met : Moment.accepted { Moment.accepting 0#18 with cmdValid := false } = none ∧
    Moment.resets { Moment.accepting 0#18 with cmdValid := false } = false := by decide

/-- `AcceptedWordsRunInOrder`, `RunsFoldTheStepFunction`: a schedule without reset with idle moments of both kinds between two accepted
words. -/
theorem test_resetFree_met :
    ResetFree [Moment.accepting 0x10000#18, { Moment.accepting 0x3FFFF#18 with busy := true },
      { Moment.accepting 0x3FFFF#18 with cmdValid := false }, Moment.accepting 0x30000#18] ∧
    acceptedWords [Moment.accepting 0x10000#18, { Moment.accepting 0x3FFFF#18 with busy := true },
      { Moment.accepting 0x3FFFF#18 with cmdValid := false }, Moment.accepting 0x30000#18] = [0x10000#18, 0x30000#18] := by
  unfold ResetFree; decide

/-- `StepRunsTheDecodedCommand`: a moment without reset at which a word is accepted. -/
theorem test_accepted_met : (Moment.accepting 0x10000#18).resets = false ∧
    (Moment.accepting 0x10000#18).accepted = some 0x10000#18 := by decide

/-- `ResetWinsAndClearsTheRegister`: both ways in which a moment resets. -/
theorem test_reset_met : Moment.resets { Moment.accepting 0x30000#18 with rst := .assertedMidCommand } = true ∧
    Moment.resets { Moment.accepting 0x30000#18 with rst := .asserted } = true := by decide

/-- R51: a refused `FOLD` of one instance does not touch another; alone it responds 5 to `SEED 5; READ`. -/
theorem test_refusal_stays_alone :
    ((runInterleaved [(0, .accepts (.fold 1#8)), (1, .accepts (.seed 5#16)), (0, .accepts (.seed 9#16)), (1, .accepts .read)]
        [Engine.start xmodem, Engine.start x25]).map fun e => (e.refusal, seen e.outcome)) =
      [(some .unseeded, none), (none, some (some 0x5FFF#16, [5#16]))] := by decide

/-- R141, R150: an instance serves its own port moments, a reset among them, beside another. -/
theorem test_reset_of_one_instance :
    ((runInterleaved [(0, .serves), (1, .serves)]
        [⟨xmodem, { holding 1#16 with inputs := [{ Moment.accepting 0#18 with rst := .asserted }] }, none⟩,
          ⟨x25, holding 2#16, none⟩]).map fun e => e.state.crc) = [none, some 2#16] := by decide

/-- `InterleavingDoesNotMatter`: both instances in place, one that has not been refused and one that has. -/
theorem test_interleaving_met : ([Engine.start xmodem, Engine.start x25] : List Engine)[1]? = some (Engine.start x25) ∧
    (Engine.start xmodem).refusal = none ∧ ((Engine.start x25).act (.accepts .read)).refusal = some .unseeded := ⟨rfl, rfl, rfl⟩

/-- `OperandsAreTakenAsTheyStand`, `DecodeOfEncode`: words that decode to `SEED` and `FOLD`, a well-formed command. -/
theorem test_operands_met : decode 0x18001#18 = .seed 0x8001#16 ∧ decode 0x2FF81#18 = .fold 0x81#8 ∧
    (Instr.seed 0xFFFF#16).wellFormed = true := by decide

/-- `IgnoredBitsHaveNoEffect`: two words of each kind that differ in ignored bits. -/
theorem test_ignored_met : opField 0x0BEEF#18 = 0b00#2 ∧ opField 0x00000#18 = 0b00#2 ∧ opField 0x31234#18 = 0b11#2 ∧
    opField 0x30000#18 = 0b11#2 ∧ opField 0x2AB31#18 = 0b10#2 ∧ opField 0x20031#18 = 0b10#2 ∧
    byteOperand 0x2AB31#18 = byteOperand 0x20031#18 := by decide

/-- `AssemblerEmitsCanonicalWords`: a literal at each end of both ranges. -/
theorem test_literals_met : (literalValue ['2', '5', '5']).toOption = some 255 ∧ (literalValue ['2', '5', '6']).toOption = some 256 ∧
    (literalValue ['0', 'x', 'F', 'F', 'F', 'F']).toOption = some 65535 ∧
    (literalValue ['6', '5', '5', '3', '6']).toOption = some 65536 := by decide

/-- `SeedAndReadRoundTrip`: a `READ` that responds, and a run of two. -/
theorem test_round_trip_met : (∃ t v, exec .read (holding 0#16) = .next t ∧ t.rsp = some v) ∧
    ∃ t, runBy exec [.read, .read] (holding 0#16) = .next t := ⟨⟨_, _, rfl, rfl⟩, ⟨_, rfl⟩⟩

/-- `FoldAbsorbsOneByte`, last clause: R90's corner cases in both bit orders. -/
theorem test_vanishing_feedback_met : byteInFoldOrder false 0x12#8 = highByte 0x1234#16 ∧
    byteInFoldOrder true 0x48#8 = highByte 0x1234#16 := by decide

/-- `FoldDependsOnPolyAndBitOrderOnly`: two engines that differ in mask, reflection and strategy, with equal registers. -/
theorem test_fold_depends_met : ∃ s t : State,
    execWith xmodem (.fold 1#8) (holding 0#16) = .next s ∧
      execWith { xmodem with refOut := true, xorOut := 1#16, impl := .table } (.fold 1#8) (holding 0#16) = .next t :=
  ⟨_, _, rfl, rfl⟩

/-- `RightShiftingEngineConforms`: an engine that folds bit 0 first. -/
theorem test_refIn_met : x25.refIn = true := rfl

/-- `CallLengthIsCheckedAgainstBuffer`: a length equal to the buffer's and one beyond it, and both states of the register. -/
theorem test_length_met : 2 ≤ [0x31#8, 0x32#8].length ∧ [0x31#8, 0x32#8].length < 3 ∧ (holding 7#16).crc = some 7#16 ∧
    State.reset.crc = none := by decide

/-- `CONT` with a length: of no byte in the reset state, of one byte in it, and beyond the buffer in it. -/
theorem test_cont_length : seen (contWithLength exec [0x31#8] 0 State.reset) = some (none, []) ∧
    isUnseeded (contWithLength exec [0x31#8] 1 State.reset) = true ∧
    isUnseeded (contWithLength exec [0x31#8] 2 State.reset) = false := by decide

set_option maxRecDepth 20000 in
/-- `CallIsDeterministic`: a call with `NOP`s interleaved, in two engines of one variant. -/
theorem test_determinism_met : ([.nop, .seed 0#16, .nop, .fold 1#8, .read, .nop].filter fun i => decide (i ≠ .nop)) =
    callCommands 0#16 [1#8] ∧ xmodem.poly = { xmodem with impl := .table }.poly := by decide

/-- `CallsCompose`, `SaveAndRestoreResume`: a call that responds, and commands of another user after it. -/
theorem test_call_met : ∃ t v u, runBy exec (callCommands 5#16 []) State.reset = .next t ∧ t.rsp = some v ∧
    runBy exec [.seed 7#16, .read] t = .next u := ⟨_, _, _, rfl, rfl, rfl⟩

/-- `SingleBitFlipIsDetected`: a polynomial that is not zero, the last byte of a buffer and its highest bit. -/
theorem test_flip_met : xmodem.poly ≠ 0#16 ∧ 1 < [0x31#8, 0x32#8].length ∧ 7 < 8 := by decide

/-- `ZeroPolyIgnoresTheData`: the degenerate polynomial, and a buffer of two bytes. -/
theorem test_zero_poly_met : { xmodem with poly := 0x0000#16 }.poly = 0x0000#16 ∧ 2 ≤ [0xAB#8, 0xCD#8].length := by decide

/-- `CrcIsAffine`: three buffers of equal length, and a variant without mask. -/
theorem test_affine_met : [1#8, 2#8].length = [16#8, 32#8].length ∧ [16#8, 32#8].length = [160#8, 11#8].length ∧
    xmodem.xorOut = 0x0000#16 := by decide

/-- `ReadRespondsTheExternalState`, `FoldAbsorbsOneByte`, `NoExceptionEver`, `SeededUntilTheNextReset`: a state without and a state
with a value in the register, and a step that goes on without reset. -/
theorem test_seeded_met : State.reset.crc = none ∧ (holding 0x1234#16).crc = some 0x1234#16 ∧
    (∀ m, (holding 0x1234#16).inputs.head? = some m → m.resets = false) ∧
    ∃ t, step (holding 0x1234#16) = .next t := ⟨rfl, rfl, (fun _ h => nomatch h), ⟨_, rfl⟩⟩

/-- `EngineWaitsWhenTheScheduleEnds`: a state with nothing left to serve. -/
theorem test_schedule_end_met : (holding 0x1234#16).inputs = [] := rfl

/-- `StepKeepsThePortInvariant`: a state with a valid response that meets the invariant, and its step. -/
theorem test_port_invariant_met : ∃ s t : State, s.rsp.isSome = true ∧ ResponseInv Config.params s ∧ step s = .next t := by
  refine ⟨((holding 0#16).driveReady true).respond (outTransform Config.params 0#16), _, rfl, ?_, rfl⟩
  intro v hv
  cases hv
  exact ⟨rfl, rfl, rfl⟩

end Sys2Proof.Tests
end

section
/-! SUPPORT. Reflection bit by bit (R13), and the order in which the bits of a byte are folded (R5, R95). -/

namespace Sys2Proof.Machine

theorem reflect16_getLsbD (v : Word) {i : Nat} (hi : i < 16) : (reflect16 v).getLsbD i = v.getLsbD (15 - i) := by
  rw [reflect16, BitVec.getLsbD_reverse, BitVec.getMsbD_eq_getLsbD, decide_eq_true hi, Bool.true_and]

theorem reflect8_getLsbD (b : Byte) {i : Nat} (hi : i < 8) : (reflect8 b).getLsbD i = b.getLsbD (7 - i) := by
  rw [reflect8, BitVec.getLsbD_reverse, BitVec.getMsbD_eq_getLsbD, decide_eq_true hi, Bool.true_and]

@[simp] theorem reflect16_reflect16 (v : Word) : reflect16 (reflect16 v) = v := BitVec.reverse_reverse_eq

@[simp] theorem reflect8_reflect8 (b : Byte) : reflect8 (reflect8 b) = b := BitVec.reverse_reverse_eq

/-- Reflecting a byte turns one of the two bit orders of R92 into the other. -/
theorem bitsMsbFirst_reflect8 (b : Byte) : bitsMsbFirst (reflect8 b) = bitsLsbFirst b := by
  simp only [bitsMsbFirst, bitsLsbFirst, reflect8_getLsbD, Nat.reduceLT, Nat.reduceSub]

/-- The byte of R95 and R96, read from bit 7 down, is the operand in fold order. -/
theorem bitsMsbFirst_byteInFoldOrder (refIn : Bool) (b : Byte) :
    bitsMsbFirst (byteInFoldOrder refIn b) = bitsInFoldOrder refIn b := by
  cases refIn with
  | false => rfl
  | true => exact bitsMsbFirst_reflect8 b

theorem bitsMsbFirst_xor (b c : Byte) :
    bitsMsbFirst (b ^^^ c) = List.zipWith Bool.xor (bitsMsbFirst b) (bitsMsbFirst c) := by
  simp [bitsMsbFirst]

/-- The high byte of a word, read from bit 7 down, is the first eight bits of the word, read from bit 15 down. -/
theorem bitsMsbFirst_highByte (r : Word) : bitsMsbFirst (highByte r) = (List.range 8).map r.getMsbD := by
  simp [bitsMsbFirst, highByte, List.range_succ, BitVec.getMsbD_eq_getLsbD]

end Sys2Proof.Machine
end

section
/-! SUPPORT. The reduction is linear over GF(2) (R100), and data bits equal to the remainder's own leading bits cancel the feedback:
the remainder is only shifted. Both forms of the fold of a byte, R95's and R96's, follow from these two facts. -/

namespace Sys2Proof.Machine

/-- A polynomial fed back into both remainders cancels in their sum. -/
theorem xor_feedback_cancel (t u poly : Word) : (t ^^^ poly) ^^^ (u ^^^ poly) = t ^^^ u := by
  rw [BitVec.xor_comm u poly, ← BitVec.xor_assoc, BitVec.xor_assoc t, BitVec.xor_self, BitVec.xor_zero]

theorem bitstep_xor (poly r q : Word) (d e : Bool) :
    bitstep poly (r ^^^ q) (d.xor e) = bitstep poly r d ^^^ bitstep poly q e := by
  have hfb : ((r ^^^ q).getLsbD 15).xor (d.xor e) = ((r.getLsbD 15).xor d).xor ((q.getLsbD 15).xor e) := by
    simp only [BitVec.getLsbD_xor, Bool.xor_assoc, Bool.xor_left_comm]
  have hshl : shl16 (r ^^^ q) 1 = shl16 r 1 ^^^ shl16 q 1 := BitVec.shiftLeft_xor_distrib ..
  simp only [bitstep, hfb, hshl]
  cases (r.getLsbD 15).xor d with
  | false =>
    cases (q.getLsbD 15).xor e with
    | false => rfl
    | true => exact BitVec.xor_assoc ..
  | true =>
    cases (q.getLsbD 15).xor e with
    | false => simp [BitVec.xor_assoc, BitVec.xor_comm poly]
    | true => exact (xor_feedback_cancel ..).symm

theorem bitsteps_xor (poly : Word) : ∀ {ds es : List Bool}, ds.length = es.length → ∀ r q : Word,
    bitsteps poly (r ^^^ q) (List.zipWith Bool.xor ds es) = bitsteps poly r ds ^^^ bitsteps poly q es
  | [], [], _, _, _ => rfl
  | d :: ds, e :: es, h, r, q => by
    rw [List.zipWith_cons_cons, bitsteps_cons, bitstep_xor, bitsteps_xor poly (Nat.succ.inj h)]
    rfl

/-- A data bit equal to the remainder's leading bit makes no feedback. -/
theorem bitstep_leading_bit (poly r : Word) : bitstep poly r (r.getMsbD 0) = shl16 r 1 := by
  simp [bitstep, BitVec.getMsbD_eq_getLsbD]

theorem bitsteps_leading_bits (poly : Word) (n : Nat) (r : Word) :
    bitsteps poly r ((List.range n).map r.getMsbD) = shl16 r n := by
  induction n generalizing r with
  | zero => simp [shl16]
  | succ n ih =>
    have hbits : r.getMsbD ∘ Nat.succ = (shl16 r 1).getMsbD := by
      funext i
      simp [shl16]
    rw [List.range_succ_eq_map, List.map_cons, List.map_map, hbits, bitsteps_cons, bitstep_leading_bit, ih,
      shl16, shl16, shl16, ← BitVec.shiftLeft_add, Nat.add_comm]

/-- Folding the bits of a byte, bit 7 first, is linear in the pair of remainder and byte. -/
theorem bitsteps_bitsMsbFirst_xor (poly r q : Word) (b c : Byte) :
    bitsteps poly (r ^^^ q) (bitsMsbFirst (b ^^^ c)) =
      bitsteps poly r (bitsMsbFirst b) ^^^ bitsteps poly q (bitsMsbFirst c) := by
  have hlen : (bitsMsbFirst b).length = (bitsMsbFirst c).length := rfl
  rw [bitsMsbFirst_xor, bitsteps_xor poly hlen]

/-- The table form of eight steps (R95): the byte is split into the remainder's high byte, which only shifts the remainder, and the
table's index, which is folded from zero. -/
theorem bitsteps_bitsMsbFirst_eq_table (poly r : Word) (c : Byte) :
    bitsteps poly r (bitsMsbFirst c) = shl16 r 8 ^^^ tblEntry poly (highByte r ^^^ c) := by
  have hsplit : c = highByte r ^^^ (highByte r ^^^ c) := by
    rw [← BitVec.xor_assoc, BitVec.xor_self, BitVec.zero_xor]
  calc bitsteps poly r (bitsMsbFirst c)
    _ = bitsteps poly (r ^^^ 0#16) (bitsMsbFirst (highByte r ^^^ (highByte r ^^^ c))) := by
      rw [← hsplit, BitVec.xor_zero]
    _ = bitsteps poly r (bitsMsbFirst (highByte r)) ^^^ tblEntry poly (highByte r ^^^ c) :=
      bitsteps_bitsMsbFirst_xor ..
    _ = shl16 r 8 ^^^ tblEntry poly (highByte r ^^^ c) := by
      rw [bitsMsbFirst_highByte, bitsteps_leading_bits]

/-- R97: the table form of the fold and the bit-serial form agree. -/
theorem foldbyteTable_eq_foldbyte (poly : Word) (refIn : Bool) (r : Word) (b : Byte) :
    foldbyteTable poly refIn r b = foldbyte poly refIn r b := by
  rw [foldbyteTable, foldbyte, ← bitsMsbFirst_byteInFoldOrder, bitsteps_bitsMsbFirst_eq_table]

end Sys2Proof.Machine
end

section
/-! SUPPORT. `IMPL` reaches nothing that the engine does (R8). -/

namespace Sys2Proof.Machine

/-- Both strategies compute the fold of R92. -/
theorem foldByImpl_eq_foldbyte (p : Params) (r : Word) (b : Byte) : foldByImpl p r b = foldbyte p.poly p.refIn r b := by
  unfold foldByImpl
  cases p.impl with
  | bitSerial => rfl
  | table => exact foldbyteTable_eq_foldbyte ..

/-- The execution of a command does not depend on the strategy: `FOLD` alone names it. -/
theorem execWith_impl (p : Params) (m : Impl) : execWith { p with impl := m } = execWith p := by
  funext i s
  cases i with
  | nop | seed | read => rfl
  | fold b => simp only [execWith, foldWith, foldByImpl_eq_foldbyte]

end Sys2Proof.Machine
end

section
/-! The statements of 00_scope.md. -/

open Sys2Proof Sys2Proof.Machine

/-- Settles O2, by the bits of the reversal in both widths. -/
theorem reflectionReversesBits : Obligations.ReflectionReversesBits :=
  ⟨fun v _ hi => reflect16_getLsbD v hi, fun b _ hi => reflect8_getLsbD b hi, reflect16_reflect16, reflect8_reflect8⟩

/-- Settles O3: the two engines execute every command alike, so they step and run alike. -/
theorem strategyIsUnobservable : Obligations.StrategyIsUnobservable := by
  intro p m s
  have hexec : execWith { p with impl := m } = execWith p := execWith_impl p m
  exact ⟨by rw [stepWith, stepWith, hexec], fun cs => by rw [hexec]⟩

end

section
/-! SUPPORT. The four commands by the operations of the state, and how the register becomes and stays seeded (R21, R152). -/

namespace Sys2Proof.Machine

theorem exec_nop (s : State) : exec .nop s = .next s := rfl

theorem exec_seed (S : Word) (s : State) : exec (.seed S) s = .next (s.writeCrc (inTransform Config.params S)) := rfl

theorem exec_fold (b : Byte) (s : State) :
    exec (.fold b) s = s.readCrc fun r => s.writeCrc (foldByImpl Config.params r b) := rfl

theorem exec_read (s : State) : exec .read s = s.readCrc fun r => s.respond (outTransform Config.params r) := rfl

/-- No command takes the value away from a register that holds one. -/
theorem exec_keeps_seeded {i : Instr} {s t : State} (hs : s.crc.isSome = true) (h : exec i s = .next t) :
    t.crc.isSome = true := by
  cases i with
  | nop =>
    rw [exec_nop] at h
    cases h
    exact hs
  | seed S =>
    rw [exec_seed] at h
    cases h
    rfl
  | fold b =>
    rw [exec_fold] at h
    obtain ⟨r, -, rfl⟩ := State.readCrc_next h
    rfl
  | read =>
    rw [exec_read] at h
    obtain ⟨r, -, rfl⟩ := State.readCrc_next h
    exact hs

/-- A moment without reset keeps the register seeded, whatever is accepted in it. -/
theorem serve_keeps_seeded {m : Moment} {s t : State} (hm : m.resets = false) (hs : s.crc.isSome = true)
    (h : serve exec m s = .next t) : t.crc.isSome = true := by
  obtain ⟨hreset, -⟩ | ⟨-, w, -, hserve⟩ | ⟨-, -, hserve⟩ := serve_cases exec m s
  · rw [hm] at hreset
    cases hreset
  · have hready : (s.driveReady m.cmdReady).crc.isSome = true := hs
    exact exec_keeps_seeded hready (hserve.symm.trans h)
  · rw [hserve] at h
    cases h
    exact hs

/-- A step keeps the register seeded unless the next moment of the schedule is one of reset. -/
theorem step_keeps_seeded {s t : State} (hs : s.crc.isSome = true)
    (hm : ∀ m, s.inputs.head? = some m → m.resets = false) (h : step s = .next t) : t.crc.isSome = true := by
  obtain ⟨-, hwait⟩ | ⟨m, rest, hinputs, hserve⟩ := stepBy_cases exec s
  · rw [step, hwait] at h
    cases h
    exact hs
  · have hm : m.resets = false := hm m (by rw [hinputs, List.head?_cons])
    have hlowered : ({ s.lowerRsp with inputs := rest } : State).crc.isSome = true := hs
    exact serve_keeps_seeded hm hlowered (hserve.symm.trans h)

end Sys2Proof.Machine
end

section
/-! The statements of 10_state.md. -/

open Sys2Proof Sys2Proof.Machine

/-- Settles O56: before the first `SEED` a read of the register is refused, and neither a command nor a moment without reset
unseeds a seeded register. -/
theorem seededUntilTheNextReset : Obligations.SeededUntilTheNextReset :=
  ⟨State.reset_crc,
    fun s hnone => ⟨exec_nop s, fun S => exec_seed S s, fun _ => State.readCrc_none hnone _, State.readCrc_none hnone _⟩,
    fun _ _ _ hs h => exec_keeps_seeded hs h,
    fun _ _ hs hm h => step_keeps_seeded hs hm h⟩

end

section
/-! SUPPORT. The operand fields of a command word (R66), the decoder by its field `OP` (R65), and the decoding of the canonical words
that carry an operand. -/

namespace Sys2Proof

@[simp] theorem argField_getLsbD (w : CommandWord) {i : Nat} (hi : i < 16) : (argField w).getLsbD i = w.getLsbD i := by
  simp [argField, hi]

@[simp] theorem byteOperand_getLsbD (w : CommandWord) {i : Nat} (hi : i < 8) : (byteOperand w).getLsbD i = w.getLsbD i := by
  simp [byteOperand, hi]

@[simp] theorem argField_fields (x : BitVec 2) (a : Word) : argField (show CommandWord from x ++ a) = a := by
  apply BitVec.eq_of_getLsbD_eq
  intro i hi
  rw [argField_getLsbD _ hi, fields_getLsbD, if_pos hi]

@[simp] theorem byteOperand_fields (x : BitVec 2) (a : Word) :
    byteOperand (show CommandWord from x ++ a) = a.setWidth 8 := by
  apply BitVec.eq_of_getLsbD_eq
  intro i hi
  rw [byteOperand_getLsbD _ hi, fields_getLsbD, if_pos (by omega), BitVec.getLsbD_setWidth, decide_eq_true hi, Bool.true_and]

theorem decode_of_opField_nop {w : CommandWord} (h : opField w = 0b00#2) : decode w = .nop := by
  simp [decode, h]

theorem decode_of_opField_seed {w : CommandWord} (h : opField w = 0b01#2) : decode w = .seed (seedOperand w) := by
  simp [decode, h]

theorem decode_of_opField_fold {w : CommandWord} (h : opField w = 0b10#2) : decode w = .fold (byteOperand w) := by
  simp [decode, h]

theorem decode_of_opField_read {w : CommandWord} (h : opField w = 0b11#2) : decode w = .read := by
  simp [decode, h]

/-- Everything the decoder can answer: all four values of `OP` are assigned, and each names one command (R65, R66). -/
theorem decode_cases (w : CommandWord) :
    (opField w = 0b00#2 ∧ decode w = .nop) ∨
    (opField w = 0b01#2 ∧ decode w = .seed (seedOperand w)) ∨
    (opField w = 0b10#2 ∧ decode w = .fold (byteOperand w)) ∨
    (opField w = 0b11#2 ∧ decode w = .read) := by
  have hop : ∀ x : BitVec 2, x = 0b00#2 ∨ x = 0b01#2 ∨ x = 0b10#2 ∨ x = 0b11#2 := by decide
  obtain h | h | h | h := hop (opField w)
  · exact .inl ⟨h, decode_of_opField_nop h⟩
  · exact .inr (.inl ⟨h, decode_of_opField_seed h⟩)
  · exact .inr (.inr (.inl ⟨h, decode_of_opField_fold h⟩))
  · exact .inr (.inr (.inr ⟨h, decode_of_opField_read h⟩))

theorem seedOperand_of_decode {w : CommandWord} {S : Word} (h : decode w = .seed S) : seedOperand w = S := by
  obtain ⟨-, hd⟩ | ⟨-, hd⟩ | ⟨-, hd⟩ | ⟨-, hd⟩ := decode_cases w <;> cases hd.symm.trans h
  rfl

theorem byteOperand_of_decode {w : CommandWord} {b : Byte} (h : decode w = .fold b) : byteOperand w = b := by
  obtain ⟨-, hd⟩ | ⟨-, hd⟩ | ⟨-, hd⟩ | ⟨-, hd⟩ := decode_cases w <;> cases hd.symm.trans h
  rfl

theorem decode_encode_seed (S : Word) : decode (encode (.seed S)) = .seed S := by
  rw [encode_seed_fields, decode_of_opField_seed (opField_fields 1#2 S), seedOperand, argField_fields]

theorem decode_encode_fold (b : Byte) : decode (encode (.fold b)) = .fold b := by
  rw [encode_fold_fields, decode_of_opField_fold (opField_fields 2#2 _), byteOperand_fields,
    BitVec.setWidth_setWidth_of_le b (by decide), BitVec.setWidth_eq]

/-- The bits of a canonical `FOLD` that the engine ignores are zero (R67). -/
theorem encode_fold_ignored (b : Byte) : (encode (.fold b)).extractLsb' 8 8 = 0#8 := by
  apply BitVec.eq_of_getLsbD_eq
  intro i hi
  have hzero : (b.setWidth 16).getLsbD (8 + i) = false := by simp
  rw [BitVec.getLsbD_extractLsb', encode_fold_fields, fields_getLsbD, if_pos (by omega), hzero, Bool.and_false,
    BitVec.getLsbD_zero]

end Sys2Proof
end

section
/-! SUPPORT. The responses of a command and of a run (R63). -/

namespace Sys2Proof.Machine

/-- Everything a `READ` that completes can do. -/
theorem exec_read_next {s t : State} (h : exec .read s = .next t) :
    ∃ r, s.crc = some r ∧ t = s.respond (outTransform Config.params r) :=
  State.readCrc_next (exec_read s ▸ h)

/-- A command other than `READ` leaves the response port and the record of responses as they are. -/
theorem exec_keeps_responses {i : Instr} {s t : State} (hi : i ≠ .read) (h : exec i s = .next t) :
    t.rsp = s.rsp ∧ t.responses = s.responses := by
  cases i with
  | nop =>
    rw [exec_nop] at h
    cases h
    exact ⟨rfl, rfl⟩
  | seed S =>
    rw [exec_seed] at h
    cases h
    exact ⟨rfl, rfl⟩
  | fold b =>
    rw [exec_fold] at h
    obtain ⟨r, -, rfl⟩ := State.readCrc_next h
    exact ⟨rfl, rfl⟩
  | read => exact absurd rfl hi

/-- One command appends one response if it is a `READ` and none otherwise. -/
theorem exec_appends_responses {i : Instr} {s t : State} (h : exec i s = .next t) :
    ∃ vs : List Word, t.responses = s.responses ++ vs ∧ vs.length = [i].count .read := by
  by_cases hi : i = .read
  · subst hi
    obtain ⟨r, -, rfl⟩ := exec_read_next h
    exact ⟨_, State.respond_responses .., rfl⟩
  · obtain ⟨-, hresponses⟩ := exec_keeps_responses hi h
    exact ⟨[], by rw [hresponses, List.append_nil], by simp [hi]⟩

/-- A run appends one response for each of its `READ`s, by induction on the commands. -/
theorem runBy_appends_responses {cs : List Instr} {s t : State} (h : runBy exec cs s = .next t) :
    ∃ vs : List Word, t.responses = s.responses ++ vs ∧ vs.length = cs.count .read := by
  induction cs generalizing s with
  | nil =>
    cases h
    exact ⟨[], (List.append_nil _).symm, rfl⟩
  | cons c cs ih =>
    rw [runBy_cons, andThen_eq_next] at h
    obtain ⟨u, hfirst, hrest⟩ := h
    obtain ⟨vs, hvs, hvsLength⟩ := exec_appends_responses hfirst
    obtain ⟨ws, hws, hwsLength⟩ := ih hrest
    refine ⟨vs ++ ws, ?_, ?_⟩
    · rw [hws, hvs, State.lowerRsp_responses, List.append_assoc]
    · rw [List.length_append, hvsLength, hwsLength, ← List.count_append, List.singleton_append]

end Sys2Proof.Machine
end

section
/-! The statements of 30_encoding.md. -/

open Sys2Proof Sys2Proof.Machine

/-- Settles O20: a canonical word is its field `OP` above its operand. -/
theorem canonicalEncodings : Obligations.CanonicalEncodings := by
  refine ⟨rfl, fun S => ?_, fun b => ?_, rfl⟩
  · rw [encode_seed_fields, fields_toNat]
    rfl
  · have hwidth : (b.setWidth 16).toNat = b.toNat := BitVec.toNat_setWidth_of_le (by decide)
    rw [encode_fold_fields, fields_toNat, hwidth]
    rfl

/-- Settles O14, by what one command appends to the responses and induction on the run. -/
theorem oneResponsePerRead : Obligations.OneResponsePerRead := by
  refine ⟨fun s t h => ?_, fun _ _ _ hi h => exec_keeps_responses hi h, fun _ _ _ h => runBy_appends_responses h⟩
  obtain ⟨r, hr, rfl⟩ := exec_read_next h
  exact ⟨r, hr, State.respond_rsp .., State.respond_responses ..⟩

/-- Settles O17, by the four answers of the decoder, of which no two agree in `OP` or in the command. -/
theorem opFieldSelectsTheCommand : Obligations.OpFieldSelectsTheCommand := by
  intro w
  obtain ⟨hop, hd⟩ | ⟨hop, hd⟩ | ⟨hop, hd⟩ | ⟨hop, hd⟩ := decode_cases w <;> simp [hop, hd]

/-- Settles O18: a decoded operand is a field of the word, and the canonical words reach every operand. -/
theorem operandsAreTakenAsTheyStand : Obligations.OperandsAreTakenAsTheyStand := by
  refine ⟨fun w S h i hi => ?_, fun w b h i hi => ?_, fun S => ⟨_, decode_encode_seed S⟩, fun b => ⟨_, decode_encode_fold b⟩⟩
  · rw [← seedOperand_of_decode h, seedOperand, argField_getLsbD w hi]
  · rw [← byteOperand_of_decode h, byteOperand_getLsbD w hi]

/-- Settles O19: the decoder reads `OP` and, of a `FOLD`, the byte operand, and nothing of the ignored bits. -/
theorem ignoredBitsHaveNoEffect : Obligations.IgnoredBitsHaveNoEffect := by
  refine ⟨fun v w hop hkind => ?_, fun b => ⟨rfl, rfl, encode_fold_ignored b⟩⟩
  have hdecode : decode v = decode w := by
    obtain hv | hv | ⟨hv, hbyte⟩ := hkind
    · rw [decode_of_opField_nop hv, decode_of_opField_nop (hop ▸ hv)]
    · rw [decode_of_opField_read hv, decode_of_opField_read (hop ▸ hv)]
    · rw [decode_of_opField_fold hv, decode_of_opField_fold (hop ▸ hv), hbyte]
  exact ⟨hdecode, fun s => by rw [hdecode]⟩

end

section
/-! SUPPORT. The boundary transforms `In` and `Out` in the two settings of `REFOUT` (R82, R83): an equation per setting, and each
undoes the other. -/

namespace Sys2Proof.Machine

theorem reflect16_xor (v w : Word) : reflect16 (v ^^^ w) = reflect16 v ^^^ reflect16 w := by
  apply BitVec.eq_of_getLsbD_eq
  intro i hi
  simp only [BitVec.getLsbD_xor, reflect16_getLsbD _ hi]

theorem inTransform_of_plain {p : Params} (h : p.refOut = false) (s : Word) : inTransform p s = s ^^^ p.xorOut := by
  simp [inTransform, h]

theorem inTransform_of_reflected {p : Params} (h : p.refOut = true) (s : Word) :
    inTransform p s = reflect16 (s ^^^ p.xorOut) := by
  simp [inTransform, h]

theorem outTransform_of_plain {p : Params} (h : p.refOut = false) (r : Word) : outTransform p r = r ^^^ p.xorOut := by
  simp [outTransform, h]

theorem outTransform_of_reflected {p : Params} (h : p.refOut = true) (r : Word) :
    outTransform p r = reflect16 r ^^^ p.xorOut := by
  simp [outTransform, h]

/-- `Out(In(s)) = s` (R83). -/
@[simp] theorem outTransform_inTransform (p : Params) (s : Word) : outTransform p (inTransform p s) = s := by
  cases h : p.refOut with
  | false => rw [outTransform_of_plain h, inTransform_of_plain h, xor_cancel_right]
  | true => rw [outTransform_of_reflected h, inTransform_of_reflected h, reflect16_reflect16, xor_cancel_right]

/-- `In(Out(r)) = r` (R83). -/
@[simp] theorem inTransform_outTransform (p : Params) (r : Word) : inTransform p (outTransform p r) = r := by
  cases h : p.refOut with
  | false => rw [inTransform_of_plain h, outTransform_of_plain h, xor_cancel_right]
  | true => rw [inTransform_of_reflected h, outTransform_of_reflected h, xor_cancel_right, reflect16_reflect16]

theorem inTransform_bijective (p : Params) : Function.Bijective (inTransform p) :=
  Function.bijective_iff_has_inverse.mpr ⟨outTransform p, outTransform_inTransform p, inTransform_outTransform p⟩

theorem outTransform_bijective (p : Params) : Function.Bijective (outTransform p) :=
  Function.bijective_iff_has_inverse.mpr ⟨inTransform p, inTransform_outTransform p, outTransform_inTransform p⟩

theorem inTransform_getLsbD (p : Params) (s : Word) {i : Nat} (hi : i < 16) :
    (inTransform p s).getLsbD i =
      if p.refOut then (s.getLsbD (15 - i)).xor (p.xorOut.getLsbD (15 - i))
      else (s.getLsbD i).xor (p.xorOut.getLsbD i) := by
  cases h : p.refOut with
  | false => rw [inTransform_of_plain h, BitVec.getLsbD_xor, if_neg Bool.false_ne_true]
  | true => rw [inTransform_of_reflected h, reflect16_getLsbD _ hi, BitVec.getLsbD_xor, if_pos rfl]

theorem outTransform_getLsbD (p : Params) (r : Word) {i : Nat} (hi : i < 16) :
    (outTransform p r).getLsbD i =
      (if p.refOut then r.getLsbD (15 - i) else r.getLsbD i).xor (p.xorOut.getLsbD i) := by
  cases h : p.refOut with
  | false => rw [outTransform_of_plain h, BitVec.getLsbD_xor, if_neg Bool.false_ne_true]
  | true => rw [outTransform_of_reflected h, BitVec.getLsbD_xor, reflect16_getLsbD _ hi, if_pos rfl]

/-- With reflection, `In` applies the mask reflected where `Out` applies it as it is; this alone can tell the two apart. -/
theorem inTransform_eq_outTransform_iff (p : Params) :
    (∀ v, inTransform p v = outTransform p v) ↔ p.refOut = false ∨ reflect16 p.xorOut = p.xorOut := by
  cases h : p.refOut with
  | false => exact ⟨fun _ => .inl rfl, fun _ v => by rw [inTransform_of_plain h, outTransform_of_plain h]⟩
  | true =>
    have hmask (v : Word) : inTransform p v = outTransform p v ↔ reflect16 p.xorOut = p.xorOut := by
      rw [inTransform_of_reflected h, outTransform_of_reflected h, reflect16_xor, BitVec.xor_right_inj]
    simp [hmask]

end Sys2Proof.Machine
end

section
/-! SUPPORT. `NOP` in a run (R80), and `READ` from a register that holds a value, after a `SEED` in particular (R85). -/

namespace Sys2Proof.Machine

/-- A run does not see whether `rsp_valid` has fallen before it; only the state it ends in, if it has no command, can show it. -/
theorem runBy_lowerRsp (ex : Instr → State → Result) (cs : List Instr) (s : State) :
    andThen (runBy ex cs s.lowerRsp) (fun t => .next t.lowerRsp) =
      andThen (runBy ex cs s) fun t => .next t.lowerRsp := by
  cases cs with
  | nil => rfl
  | cons c cs => rw [runBy_cons, runBy_cons, State.lowerRsp_lowerRsp]

/-- Up to the response port, a run is the run without its `NOP`s, by induction on the commands. -/
theorem runBy_filter_nop (cs : List Instr) (s : State) :
    andThen (runBy exec cs s) (fun t => .next t.lowerRsp) =
      andThen (runBy exec (cs.filter fun i => decide (i ≠ .nop)) s) fun t => .next t.lowerRsp := by
  induction cs generalizing s with
  | nil => rfl
  | cons c cs ih =>
    by_cases hc : c = .nop
    · subst hc
      rw [List.filter_cons_of_neg (by decide), runBy_cons, exec_nop, andThen_next, ih, runBy_lowerRsp]
    · rw [List.filter_cons_of_pos (by simpa using hc), runBy_cons, runBy_cons, andThen_assoc, andThen_assoc, funext ih]

/-- Writing back the value that the register holds changes nothing. -/
theorem State.writeCrc_self {s : State} {r : Word} (h : s.crc = some r) : s.writeCrc r = s := by
  rw [State.writeCrc, ← h]

/-- A second write of the register overrides the first. -/
@[simp] theorem State.writeCrc_writeCrc (s : State) (v w : Word) : (s.writeCrc v).writeCrc w = s.writeCrc w := rfl

theorem exec_read_of_seeded {s : State} {r : Word} (h : s.crc = some r) :
    exec .read s = .next (s.respond (outTransform Config.params r)) :=
  State.readCrc_some h _

/-- `READ` directly after `SEED S` responds `S` (R85). -/
theorem runBy_seed_read (S : Word) (s : State) :
    ∃ t, runBy exec [.seed S, .read] s = .next t ∧ t.rsp = some S :=
  ⟨_, rfl, by rw [State.respond_rsp, outTransform_inTransform]⟩

end Sys2Proof.Machine
end

section
/-! The statements of 40_state_transfer.md. -/

open Sys2Proof Sys2Proof.Machine Sys2Proof.Safety

/-- Settles O25, by induction on the commands: a `NOP` only lets `rsp_valid` fall, which no later command sees. -/
theorem nopDoesNothing : Obligations.NopDoesNothing :=
  ⟨exec_nop, runBy_filter_nop⟩

/-- Settles O26: `In` is the bits of the masked value, reversed if `REFOUT`, and `Out` undoes it. -/
theorem inTransformOnBits : Obligations.InTransformOnBits := by
  refine fun p => ⟨fun s _ hi => inTransform_getLsbD p s hi, inTransform_bijective p, fun href hmask s => ?_⟩
  rw [inTransform_of_plain href, hmask, BitVec.xor_zero]

/-- Settles O27, by the two settings of `REFOUT`. -/
theorem outTransformInvertsIn : Obligations.OutTransformInvertsIn := fun p =>
  ⟨fun r _ hi => outTransform_getLsbD p r hi, outTransform_bijective p, outTransform_inTransform p,
    inTransform_outTransform p, inTransform_eq_outTransform_iff p⟩

/-- Settles O28: a `SEED` overwrites the register and reads nothing of the state before. -/
theorem seedLoadsTheRegister : Obligations.SeedLoadsTheRegister := by
  refine ⟨exec_seed, fun S s => ?_, fun S s t h => ?_, fun s r hr => ?_⟩
  · rw [exec_seed, andThen_next, exec_seed, State.writeCrc_writeCrc]
  · obtain ⟨hready, hrsp, hinputs, hresponses⟩ := h
    rw [exec_seed, exec_seed, State.writeCrc, State.writeCrc, hready, hrsp, hinputs, hresponses]
  · rw [exec_seed, inTransform_outTransform, State.writeCrc_self hr]

/-- Settles O29: a `READ` responds from the register and leaves it, so a second one finds the same value. -/
theorem readRespondsTheExternalState : Obligations.ReadRespondsTheExternalState := by
  refine ⟨fun s r hr => exec_read_of_seeded hr, fun s hnone => State.readCrc_none hnone _,
    fun s S => runBy_seed_read S s, fun s t h => ?_⟩
  obtain ⟨r, hr, rfl⟩ := exec_read_next h
  exact ⟨_, exec_read_of_seeded hr, rfl, rfl⟩

end

section
/-! SUPPORT. One step of the reduction bit by bit (R91), the fold of a byte that makes no feedback (R90), and the entries of the
table (R94). -/

namespace Sys2Proof.Machine

theorem shl16_one_getLsbD (r : Word) {i : Nat} (hi : i < 16) :
    (shl16 r 1).getLsbD i = (decide (0 < i) && r.getLsbD (i - 1)) := by
  rw [shl16, BitVec.getLsbD_shiftLeft, decide_eq_true hi, Bool.true_and]
  cases i <;> rfl

/-- The step shifts towards bit 15 and feeds `r[15] XOR d` back at the taps of `POLY` (R91). -/
theorem bitstep_getLsbD (poly r : Word) (d : Bool) {i : Nat} (hi : i < 16) :
    (bitstep poly r d).getLsbD i =
      (decide (0 < i) && r.getLsbD (i - 1)).xor (((r.getLsbD 15).xor d) && poly.getLsbD i) := by
  have hshl := shl16_one_getLsbD r hi
  unfold bitstep
  cases (r.getLsbD 15).xor d with
  | false => simp [hshl]
  | true => simp [hshl]

/-- Zero data bits leave the zero remainder. -/
theorem bitsteps_zero_data (poly : Word) : ∀ n, bitsteps poly 0#16 (List.replicate n false) = 0#16
  | 0 => rfl
  | n + 1 => by
    have hstep : bitstep poly 0#16 false = 0#16 := bitstep_leading_bit poly 0#16
    rw [List.replicate_succ, bitsteps_cons, hstep, bitsteps_zero_data poly n]

@[simp] theorem byteInFoldOrder_zero (refIn : Bool) : byteInFoldOrder refIn 0#8 = 0#8 := by
  cases refIn <;> decide

theorem inHighHalf_getLsbD (b : Byte) (i : Nat) :
    (inHighHalf b).getLsbD i = if i < 8 then (0#8).getLsbD i else b.getLsbD (i - 8) :=
  BitVec.getLsbD_append

@[simp] theorem highByte_inHighHalf (b : Byte) : highByte (inHighHalf b) = b := by
  apply BitVec.eq_of_getLsbD_eq
  intro i hi
  rw [highByte, BitVec.getLsbD_extractLsb', inHighHalf_getLsbD]
  simp [hi]

@[simp] theorem shl16_inHighHalf (b : Byte) : shl16 (inHighHalf b) 8 = 0#16 := by
  apply BitVec.eq_of_getLsbD_eq
  intro i hi
  have hlow : i - 8 < 8 := by omega
  simp [shl16, inHighHalf_getLsbD, hlow]

/-- The fold takes the byte in fold order, from bit 7 down (R92). -/
theorem foldbyte_eq_bitsMsbFirst (poly : Word) (refIn : Bool) (r : Word) (b : Byte) :
    foldbyte poly refIn r b = bitsteps poly r (bitsMsbFirst (byteInFoldOrder refIn b)) := by
  rw [foldbyte, bitsMsbFirst_byteInFoldOrder]

/-- A byte equal to the high half of the remainder makes no feedback in any of its eight steps (R90). -/
theorem foldbyte_of_eq_highByte {refIn : Bool} {r : Word} {b : Byte} (h : byteInFoldOrder refIn b = highByte r)
    (poly : Word) : foldbyte poly refIn r b = shl16 r 8 := by
  rw [foldbyte_eq_bitsMsbFirst, h, bitsMsbFirst_highByte, bitsteps_leading_bits]

@[simp] theorem tbl_length (poly : Word) : (tbl poly).length = 256 := by
  rw [tbl, List.length_map, List.length_range]

theorem tbl_getElem? (poly : Word) (i : Byte) : (tbl poly)[i.toNat]? = some (tblEntry poly i) := by
  rw [tbl, List.getElem?_map, List.getElem?_range i.isLt, Option.map_some, BitVec.ofNat_toNat, BitVec.setWidth_eq]

@[simp] theorem tblEntry_zero (poly : Word) : tblEntry poly 0#8 = 0#16 := bitsteps_zero_data poly 8

/-- Seven zero bits leave zero, and the eighth feeds `POLY` back (R94). -/
theorem tblEntry_one (poly : Word) : tblEntry poly 1#8 = poly := by
  have hbits : bitsMsbFirst 1#8 = List.replicate 7 false ++ [true] := by decide
  have hstep : bitstep poly 0#16 true = poly := BitVec.zero_xor
  rw [tblEntry, hbits, bitsteps_append, bitsteps_zero_data, bitsteps_cons, bitsteps_nil, hstep]

/-- The table form of a zero byte folded into `{i, 0x00}`: the shift leaves nothing but the entry `i` (R94). -/
theorem tblEntry_eq_zero_data (poly : Word) (i : Byte) :
    tblEntry poly i = bitsteps poly (inHighHalf i) (List.replicate 8 false) := by
  have hbits : List.replicate 8 false = bitsMsbFirst 0#8 := by decide
  rw [hbits, bitsteps_bitsMsbFirst_eq_table, shl16_inHighHalf, highByte_inHighHalf, BitVec.xor_zero, BitVec.zero_xor]

end Sys2Proof.Machine
end

section
/-! SUPPORT. The command `FOLD` by the defining form of the fold, whatever the strategy (R8, R90). -/

namespace Sys2Proof.Machine

/-- Everything a `FOLD` that goes on can do, in an engine of either strategy (R90). -/
theorem execWith_fold_next {p : Params} {b : Byte} {s t : State} (h : execWith p (.fold b) s = .next t) :
    ∃ r, s.crc = some r ∧ t = s.writeCrc (foldbyte p.poly p.refIn r b) := by
  obtain ⟨r, hr, ht⟩ := State.readCrc_next h
  exact ⟨r, hr, by rw [ht, foldByImpl_eq_foldbyte]⟩

theorem exec_fold_of_seeded {s : State} {r : Word} (h : s.crc = some r) (b : Byte) :
    exec (.fold b) s = .next (s.writeCrc (foldbyte Config.params.poly Config.params.refIn r b)) := by
  rw [exec_fold, State.readCrc_some h, foldByImpl_eq_foldbyte]

end Sys2Proof.Machine
end

section
/-! SUPPORT. Words as polynomials over GF(2): one step of the reduction multiplies the remainder by x, adds the data bit at x^16 and
subtracts a multiple of `G`, so any number of steps compute the remainder of R93. -/

namespace Sys2Proof.Safety

open Sys2Proof.Machine

/-- Addition in `GF(2)[x]` is XOR of the coefficients. -/
theorem polyOf_xor {n : Nat} (v w : BitVec n) : polyOf (v ^^^ w) = polyOf v + polyOf w := by
  unfold polyOf
  rw [← Finset.sum_add_distrib]
  refine Finset.sum_congr rfl fun i _ => ?_
  rw [BitVec.getLsbD_xor]
  cases v.getLsbD i <;> cases w.getLsbD i <;> simp [CharTwo.add_self_eq_zero]

@[simp] theorem polyOf_zero (n : Nat) : polyOf (0#n) = 0 := by simp [polyOf]

theorem polyOf_degree_lt {n : Nat} (v : BitVec n) : (polyOf v).degree < n := by
  refine (Polynomial.degree_sum_le _ _).trans_lt ((Finset.sup_lt_iff (WithBot.bot_lt_coe n)).mpr fun i hi => ?_)
  have hin : i < n := Finset.mem_range.mp hi
  split
  · rw [Polynomial.degree_X_pow]
    exact WithBot.coe_lt_coe.mpr hin
  · rw [Polynomial.degree_zero]
    exact WithBot.bot_lt_coe n

theorem generator_degree (poly : Word) : (generator poly).degree = 16 := by
  have hX : (Polynomial.X ^ 16 : Polynomial (ZMod 2)).degree = 16 := Polynomial.degree_X_pow 16
  have hlt : (polyOf poly).degree < (Polynomial.X ^ 16 : Polynomial (ZMod 2)).degree := hX ▸ polyOf_degree_lt poly
  rw [generator, Polynomial.degree_add_eq_left_of_degree_lt hlt, hX]

theorem generator_monic (poly : Word) : (generator poly).Monic :=
  Polynomial.monic_X_pow_add (polyOf_degree_lt poly)

/-- A word is its own remainder modulo `G`. -/
theorem polyOf_modByMonic_generator (poly r : Word) : polyOf r %ₘ generator poly = polyOf r :=
  (Polynomial.modByMonic_eq_self_iff (generator_monic poly)).mpr (by
    rw [generator_degree]
    exact polyOf_degree_lt r)

/-- A shift by one place is multiplication by x, but for the bit that leaves at bit 15. -/
theorem polyOf_mul_X (r : Word) :
    polyOf r * Polynomial.X = polyOf (shl16 r 1) + if r.getLsbD 15 then Polynomial.X ^ 16 else 0 := by
  have hbit (i : Nat) (hi : i ∈ Finset.range 15) :
      (if r.getLsbD i then Polynomial.X ^ i else 0) * Polynomial.X =
        if (shl16 r 1).getLsbD (i + 1) then (Polynomial.X ^ (i + 1) : Polynomial (ZMod 2)) else 0 := by
    have hin : i + 1 < 16 := Nat.succ_lt_succ (Finset.mem_range.mp hi)
    rw [shl16_one_getLsbD r hin, ite_mul, zero_mul, pow_succ]
    simp
  have h0 : (shl16 r 1).getLsbD 0 = false := shl16_one_getLsbD r (by decide)
  rw [polyOf, polyOf, Finset.sum_range_succ, Finset.sum_range_succ' _ 15, add_mul, Finset.sum_mul,
    Finset.sum_congr rfl hbit, ite_mul, zero_mul, ← pow_succ, h0, if_neg Bool.false_ne_true, add_zero]

/-- One step, modulo `G`, multiplies the remainder by x and adds the data bit at x^16 (R91, R93). -/
theorem generator_dvd_bitstep (poly r : Word) (d : Bool) :
    generator poly ∣ polyOf r * Polynomial.X + (if d then Polynomial.X ^ 16 else 0) - polyOf (bitstep poly r d) := by
  have hfb : (if r.getLsbD 15 then Polynomial.X ^ 16 else 0) + (if d then Polynomial.X ^ 16 else 0) =
      if (r.getLsbD 15).xor d then (Polynomial.X ^ 16 : Polynomial (ZMod 2)) else 0 := by
    cases r.getLsbD 15 <;> cases d <;> simp [CharTwo.add_self_eq_zero]
  rw [polyOf_mul_X, add_assoc, hfb, bitstep]
  cases (r.getLsbD 15).xor d with
  | false => simp
  | true => rw [if_pos rfl, if_pos rfl, polyOf_xor, add_sub_add_left_eq_sub, CharTwo.sub_eq_add, generator]

/-- Any number of steps compute a word congruent modulo `G` to the polynomial of R93, by induction on the data bits. -/
theorem generator_dvd_bitsteps (poly : Word) (ds : List Bool) (r : Word) :
    generator poly ∣
      polyOf r * Polynomial.X ^ ds.length + dataPoly ds * Polynomial.X ^ 16 - polyOf (bitsteps poly r ds) := by
  induction ds generalizing r with
  | nil => simp [dataPoly]
  | cons d ds ih =>
    have hsplit : polyOf r * Polynomial.X ^ (d :: ds).length + dataPoly (d :: ds) * Polynomial.X ^ 16 -
          polyOf (bitsteps poly r (d :: ds)) =
        (polyOf r * Polynomial.X + (if d then Polynomial.X ^ 16 else 0) - polyOf (bitstep poly r d)) *
            Polynomial.X ^ ds.length +
          (polyOf (bitstep poly r d) * Polynomial.X ^ ds.length + dataPoly ds * Polynomial.X ^ 16 -
            polyOf (bitsteps poly (bitstep poly r d) ds)) := by
      rw [bitsteps_cons, dataPoly, List.length_cons]
      cases d <;> simp <;> ring
    rw [hsplit]
    exact dvd_add (dvd_mul_of_dvd_left (generator_dvd_bitstep poly r d) _) (ih _)

/-- R93 for a list of data bits. -/
theorem polyOf_bitsteps (poly r : Word) (ds : List Bool) :
    polyOf (bitsteps poly r ds) =
      (polyOf r * Polynomial.X ^ ds.length + dataPoly ds * Polynomial.X ^ 16) %ₘ generator poly := by
  rw [← polyOf_modByMonic_generator poly]
  exact (Polynomial.modByMonic_eq_of_dvd_sub (generator_monic poly) (generator_dvd_bitsteps poly ds r)).symm

theorem dataPoly_bitsMsbFirst (b : Byte) : dataPoly (bitsMsbFirst b) = polyOf b := by
  simp only [bitsMsbFirst, dataPoly, polyOf, Finset.sum_range_succ, Finset.sum_range_zero, List.length_cons,
    List.length_nil]
  ring

/-- R93 for the bits of a byte, bit 7 first. -/
theorem polyOf_bitsteps_bitsMsbFirst (poly r : Word) (b : Byte) :
    polyOf (bitsteps poly r (bitsMsbFirst b)) =
      (polyOf r * Polynomial.X ^ 8 + polyOf b * Polynomial.X ^ 16) %ₘ generator poly := by
  rw [polyOf_bitsteps, dataPoly_bitsMsbFirst]
  rfl

/-- R93 for the fold of a byte. -/
theorem polyOf_foldbyte (poly : Word) (refIn : Bool) (r : Word) (b : Byte) :
    polyOf (foldbyte poly refIn r b) =
      (polyOf r * Polynomial.X ^ 8 + polyOf (byteInFoldOrder refIn b) * Polynomial.X ^ 16) %ₘ generator poly := by
  rw [foldbyte_eq_bitsMsbFirst, polyOf_bitsteps_bitsMsbFirst]

/-- An entry of the table is the remainder of its index moved above x^16 (R94). -/
theorem polyOf_tblEntry (poly : Word) (i : Byte) :
    polyOf (tblEntry poly i) = (polyOf i * Polynomial.X ^ 16) %ₘ generator poly := by
  rw [tblEntry, polyOf_bitsteps_bitsMsbFirst, polyOf_zero, zero_mul, zero_add]

end Sys2Proof.Safety
end

section
/-! The statements of 41_fold.md. -/

open Sys2Proof Sys2Proof.Machine Sys2Proof.Safety

/-- Settles O31: by the one read of the register in `FOLD`, R93 for the zero byte, and the byte that cancels every feedback. -/
theorem foldAbsorbsOneByte : Obligations.FoldAbsorbsOneByte := by
  refine ⟨fun s r b hr => exec_fold_of_seeded hr b, fun s b hnone => State.readCrc_none hnone _,
    fun poly r refIn => ?_, fun poly refIn => ?_, fun poly r refIn b h => foldbyte_of_eq_highByte h poly⟩
  · rw [polyOf_foldbyte, byteInFoldOrder_zero, polyOf_zero, zero_mul, add_zero]
  · have hhigh : byteInFoldOrder refIn 0#8 = highByte 0#16 := byteInFoldOrder_zero refIn
    exact foldbyte_of_eq_highByte hhigh poly

/-- Settles O35: an entry is eight steps from zero, so R93 gives its polynomial and the shift of R95 its form with zero data. -/
theorem tableEntries : Obligations.TableEntries := fun poly =>
  ⟨tbl_length poly, tbl_getElem? poly, fun _ => rfl, tblEntry_eq_zero_data poly, polyOf_tblEntry poly, tblEntry_zero poly,
    tblEntry_one poly⟩

/-- Settles O41: a `FOLD` that goes on writes `foldbyte(CRC, b)`, which names no more of the engine than `POLY` and `REFIN`. -/
theorem foldDependsOnPolyAndBitOrderOnly : Obligations.FoldDependsOnPolyAndBitOrderOnly := by
  intro p q b s t s' t' hpoly hrefIn hcrc hs ht
  obtain ⟨r, hr, rfl⟩ := execWith_fold_next hs
  obtain ⟨r', hr', rfl⟩ := execWith_fold_next ht
  have hsame : r = r' := Option.some.inj (hr.symm.trans (hcrc.trans hr'))
  rw [State.writeCrc_crc, State.writeCrc_crc, hpoly, hrefIn, hsame]

/-- Settles O32, by the bits of the shift and of the feedback. -/
theorem bitstepShiftsWithTaps : Obligations.BitstepShiftsWithTaps :=
  fun poly r d _ hi => bitstep_getLsbD poly r d hi

/-- Settles O33: the two bit orders list the bits of the byte as counted, and reflection turns one into the other. -/
theorem foldbyteIsEightBitsteps : Obligations.FoldbyteIsEightBitsteps := by
  refine fun poly r b => ⟨rfl, rfl, ?_⟩
  rw [foldbyte_eq_bitsMsbFirst, foldbyte_eq_bitsMsbFirst]
  rfl

end

section
/-! SUPPORT. The call on the empty buffer (R114). -/

namespace Sys2Proof.Machine

@[simp] theorem callCommands_nil (S : Word) : callCommands S [] = [.seed S, .read] := rfl

/-- No byte is folded, so `Out` meets `In` and undoes it (R114). -/
@[simp] theorem crc16_nil (p : Params) (S : Word) : crc16 p S [] = S := by
  rw [crc16, foldbuf_nil, outTransform_inTransform]

end Sys2Proof.Machine
end

section
/-! The statements of 42_call_and_laws.md. -/

open Sys2Proof Sys2Proof.Machine

/-- Settles O45: the call on the empty buffer is `SEED S; READ`, which responds `S`. -/
theorem emptyBufferIsIdentity : Obligations.EmptyBufferIsIdentity := by
  refine ⟨crc16_nil, fun S s => ?_⟩
  rw [callCommands_nil]
  exact runBy_seed_read S s

end

section
/-! SUPPORT. With a value in `CRC` every command goes on, in any engine: `FOLD` and `READ` stop only at a read of a register that
holds none (R130, R152). -/

namespace Sys2Proof.Machine

theorem execWith_next_of_seeded (p : Params) (i : Instr) {s : State} {r : Word} (h : s.crc = some r) :
    ∃ t, execWith p i s = .next t := by
  cases i with
  | nop => exact ⟨s, rfl⟩
  | seed S => exact ⟨s.writeCrc (inTransform p S), rfl⟩
  | fold b => exact ⟨s.writeCrc (foldByImpl p r b), State.readCrc_some h _⟩
  | read => exact ⟨s.respond (outTransform p r), State.readCrc_some h _⟩

end Sys2Proof.Machine
end

section
/-! The statements of 60_exceptions.md. -/

open Sys2Proof Sys2Proof.Machine

/-- Settles O54: the model's list of faults is empty, as R130 states of the engine's exceptions, and a register that holds a value
lets every command go on. -/
theorem noExceptionEver : Obligations.NoExceptionEver := by
  refine fun p i s => ⟨(fun f => nomatch f), fun hs => ?_⟩
  obtain ⟨r, hr⟩ := Option.isSome_iff_exists.mp hs
  exact execWith_next_of_seeded p i hr

end

section
/-! SUPPORT. Decoding undoes encoding (R73), so a canonical word names its command. -/

namespace Sys2Proof

/-- R73: every command, with every operand, survives its canonical encoding. -/
@[simp] theorem decode_encode (i : Instr) : decode (encode i) = i := by
  cases i with
  | nop => rfl
  | seed S => exact decode_encode_seed S
  | fold b => exact decode_encode_fold b
  | read => rfl

end Sys2Proof
end

section
/-! SUPPORT. What a command leaves of the ports, and the moments of the ports as steps of the machine: one lemma per kind of moment
(R61, R62, R150, R160). -/

namespace Sys2Proof.Machine

/-- No command touches the schedule or `cmd_ready`, since none reads or writes them. -/
theorem exec_keeps_inputs_cmdReady {i : Instr} {s t : State} (h : exec i s = .next t) :
    t.inputs = s.inputs ∧ t.cmdReady = s.cmdReady := by
  have hsame := exec_inputs i s s.inputs
  have hsame' := exec_cmdReady i s s.cmdReady
  rw [h] at hsame hsame'
  have hinputs : t = { t with inputs := s.inputs } := Host.Outcome.next.inj hsame
  have hready : t = { t with cmdReady := s.cmdReady } := Host.Outcome.next.inj hsame'
  exact ⟨by rw [hinputs], by rw [hready]⟩

theorem step_of_no_inputs {s : State} (h : s.inputs = []) : step s = .next s.lowerRsp := by
  simp [step, stepBy, h]

theorem step_of_inputs {s : State} {m : Moment} {rest : List Moment} (h : s.inputs = m :: rest) :
    step s = serve exec m { s.lowerRsp with inputs := rest } := by
  simp [step, stepBy, h]

theorem step_of_resets {s : State} {m : Moment} {rest : List Moment} (h : s.inputs = m :: rest) (hm : m.resets = true) :
    step s = .next { s with crc := none, cmdReady := false, rsp := none, inputs := rest } := by
  rw [step_of_inputs h, serve, if_pos hm]
  rfl

theorem step_of_accepted {s : State} {m : Moment} {rest : List Moment} {w : CommandWord} (h : s.inputs = m :: rest)
    (hm : m.resets = false) (hw : m.accepted = some w) :
    step s = exec (decode w) { s with cmdReady := true, rsp := none, inputs := rest } := by
  rw [step_of_inputs h, serve, if_neg (by simp [hm]), hw, Moment.cmdReady_of_accepted hw]
  rfl

theorem step_of_not_accepted {s : State} {m : Moment} {rest : List Moment} (h : s.inputs = m :: rest)
    (hm : m.resets = false) (hw : m.accepted = none) :
    step s = .next { s with cmdReady := m.cmdReady, rsp := none, inputs := rest } := by
  rw [step_of_inputs h, serve, if_neg (by simp [hm]), hw]
  rfl

/-- Everything a step of the machine can do that goes on: wait, reset, pass an idle moment, or execute the accepted word. -/
theorem step_next {s t : State} (h : step s = .next t) :
    (s.inputs = [] ∧ t = s.lowerRsp) ∨
    ∃ m rest, s.inputs = m :: rest ∧
      (t = { s with crc := none, cmdReady := false, rsp := none, inputs := rest } ∨
        t = { s with cmdReady := m.cmdReady, rsp := none, inputs := rest } ∨
        ∃ w, m.accepted = some w ∧ exec (decode w) { s with cmdReady := true, rsp := none, inputs := rest } = .next t) := by
  cases hi : s.inputs with
  | nil => exact .inl ⟨rfl, Host.Outcome.next.inj (h.symm.trans (step_of_no_inputs hi))⟩
  | cons m rest =>
    refine .inr ⟨m, rest, rfl, ?_⟩
    cases hm : m.resets with
    | true => exact .inl (Host.Outcome.next.inj (h.symm.trans (step_of_resets hi hm)))
    | false =>
      cases hw : m.accepted with
      | none => exact .inr (.inl (Host.Outcome.next.inj (h.symm.trans (step_of_not_accepted hi hm hw))))
      | some w => exact .inr (.inr ⟨w, rfl, (step_of_accepted hi hm hw).symm.trans h⟩)

end Sys2Proof.Machine
end

section
/-! SUPPORT. The invariant of the response port (R63, R85): a low port meets it, and a command that finds the port low and the engine
ready establishes it. -/

namespace Sys2Proof.Safety

open Sys2Proof.Machine

theorem responseInv_of_rsp_none (p : Params) {s : State} (h : s.rsp = none) : ResponseInv p s := by
  intro v hv
  cases h.symm.trans hv

theorem responseInv_respond {s : State} {r : Word} (p : Params) (hr : s.crc = some r) (hready : s.cmdReady = true) :
    ResponseInv p (s.respond (outTransform p r)) := by
  intro v hv
  cases hv
  exact ⟨by rw [externalState, State.respond_crc, hr, Option.map_some], by simp, hready⟩

theorem exec_responseInv {i : Instr} {s t : State} (hrsp : s.rsp = none) (hready : s.cmdReady = true)
    (h : exec i s = .next t) : ResponseInv Config.params t := by
  by_cases hi : i = .read
  · subst hi
    obtain ⟨r, hr, rfl⟩ := exec_read_next h
    exact responseInv_respond _ hr hready
  · obtain ⟨hkeep, -⟩ := exec_keeps_responses hi h
    exact responseInv_of_rsp_none _ (hkeep.trans hrsp)

/-- A step ends with the port low unless it executes a word, so it establishes the invariant. -/
theorem step_responseInv {s t : State} (h : step s = .next t) : ResponseInv Config.params t := by
  obtain ⟨-, rfl⟩ | ⟨m, rest, -, rfl | rfl | ⟨w, -, hexec⟩⟩ := step_next h
  · exact responseInv_of_rsp_none _ rfl
  · exact responseInv_of_rsp_none _ rfl
  · exact responseInv_of_rsp_none _ rfl
  · exact exec_responseInv rfl rfl hexec

theorem step_inputs {s t : State} (h : step s = .next t) : t.inputs = s.inputs.tail := by
  obtain ⟨hi, rfl⟩ | ⟨m, rest, hi, rfl | rfl | ⟨w, -, hexec⟩⟩ := step_next h
  · rw [State.lowerRsp_inputs, hi, List.tail_nil]
  · rw [hi, List.tail_cons]
  · rw [hi, List.tail_cons]
  · obtain ⟨hinputs, -⟩ := exec_keeps_inputs_cmdReady hexec
    rw [hinputs, hi, List.tail_cons]

end Sys2Proof.Safety
end

section
/-! The statements about decoding back, the port's invariant and single moments of the ports (30_encoding.md,
70_reset_and_hazards.md). -/

open Sys2Proof Sys2Proof.Machine Sys2Proof.Safety

/-- Settles O21, by the four commands. -/
theorem decodeOfEncode : Obligations.DecodeOfEncode :=
  fun i _ => decode_encode i

/-- Settles O59: `rsp_valid` has fallen before the moment is served, so it is 1 afterwards only through a `READ` executed in it,
which finds the engine ready, whatever the port showed before. -/
theorem stepKeepsThePortInvariant : Obligations.StepKeepsThePortInvariant :=
  fun _ _ _ h => ⟨step_responseInv h, step_inputs h⟩

/-- Settles O60: the port is low at reset. -/
theorem resetMeetsThePortInvariant : Obligations.ResetMeetsThePortInvariant :=
  ⟨State.reset_rsp, responseInv_of_rsp_none _ State.reset_rsp⟩

/-- Settles O11, by the cases of the handshake and the step over a moment at which nothing is accepted. -/
theorem handshakeDecidesAcceptance : Obligations.HandshakeDecidesAcceptance := by
  refine ⟨fun m w => ?_, fun m => ?_, fun _ _ _ h hm hw => step_of_not_accepted h hm hw⟩
  · simp [Moment.accepted, and_assoc, eq_comm (a := w)]
  · simp [Moment.cmdReady]

/-- Settles O12: the step over an accepted word, of which an offered word is one. -/
theorem stepRunsTheDecodedCommand : Obligations.StepRunsTheDecodedCommand :=
  ⟨fun _ _ _ _ h hm hw => step_of_accepted h hm hw,
    fun _ _ _ => step_of_accepted (State.offer_inputs ..) (Moment.accepting_resets _) (Moment.accepting_accepted _)⟩

/-- Settles O55: the reset state, and the step over a moment of reset. -/
theorem resetWinsAndClearsTheRegister : Obligations.ResetWinsAndClearsTheRegister :=
  ⟨State.reset_crc, State.reset_cmdReady, State.reset_rsp, fun _ _ _ h hm => step_of_resets h hm⟩

/-- Settles O58: with no moment left the step is the fall of `rsp_valid`. -/
theorem engineWaitsWhenTheScheduleEnds : Obligations.EngineWaitsWhenTheScheduleEnds :=
  fun _ h => step_of_no_inputs h

end

section
/-! SUPPORT. A command word by its two fields (R64): the rows of the opcode map compare the field `OP` alone, and encoding a decoded
word clears the bits its command ignores (R67, R73). -/

namespace Sys2Proof

/-- A word is its field `OP` above its field `ARG` (R64). -/
theorem opField_append_argField (w : CommandWord) : (show CommandWord from opField w ++ argField w) = w := by
  apply BitVec.eq_of_getLsbD_eq
  intro i hi
  rw [fields_getLsbD]
  split
  next hlow => exact argField_getLsbD w hlow
  next hhigh => rw [opField_getLsbD w _ (by omega), Nat.add_sub_cancel' (by omega)]

theorem and_opMask (w : CommandWord) : w &&& 0x30000#18 = show CommandWord from opField w ++ 0#16 := by
  rw [← opMask_fields (opField w) (argField w), opField_append_argField]

/-- Each row of the map has the mask of the field `OP`, and matches words with its own value there (30_encoding.md section 4). -/
theorem rowMatches_iff_opField {row : OpcodeRow} (hrow : row ∈ opcodeTable) (w : CommandWord) :
    rowMatches row w = true ↔ opField w = opField row.matchBits := by
  have hrows : ∀ row ∈ opcodeTable,
      row.maskBits = 0x30000#18 ∧ row.matchBits = show CommandWord from opField row.matchBits ++ 0#16 := by decide
  obtain ⟨hmask, hmatch⟩ := hrows row hrow
  rw [rowMatches, decide_eq_true_iff, hmask, and_opMask]
  constructor
  · intro h
    rw [← h, opField_fields]
  · intro h
    rw [h, ← hmatch]

/-- The rows differ in the field `OP`, so a word matches the one row that has the word's own. -/
theorem matches_one_row {row : OpcodeRow} {w : CommandWord} (hrow : row ∈ opcodeTable)
    (hop : opField w = opField row.matchBits) :
    rowMatches row w = true ∧ ∀ other ∈ opcodeTable, rowMatches other w = true → other = row := by
  have hrows : ∀ a ∈ opcodeTable, ∀ b ∈ opcodeTable, opField a.matchBits = opField b.matchBits → a = b := by decide
  refine ⟨(rowMatches_iff_opField hrow w).mpr hop, fun other hother hmatch => hrows other hother row hrow ?_⟩
  rw [← hop, (rowMatches_iff_opField hother w).mp hmatch]

theorem encode_fold_byteOperand {w : CommandWord} (hop : opField w = 0b10#2) :
    encode (.fold (byteOperand w)) = w &&& ~~~0x0FF00#18 := by
  have hmask : ∀ i, i < 18 → (~~~0x0FF00#18).getLsbD i = decide (i < 8 ∨ 16 ≤ i) := by decide
  apply BitVec.eq_of_getLsbD_eq
  intro i hi
  rw [encode_fold_fields, fields_getLsbD, BitVec.getLsbD_and, hmask i hi]
  by_cases hlow : i < 16
  · rw [if_pos hlow, BitVec.getLsbD_setWidth, decide_eq_true hlow, Bool.true_and]
    by_cases hbyte : i < 8
    · simp only [byteOperand_getLsbD w hbyte, hbyte, true_or, decide_true, Bool.and_true]
    · have hignored : ¬ (i < 8 ∨ 16 ≤ i) := by omega
      rw [BitVec.getLsbD_of_ge _ _ (by omega), decide_eq_false hignored, Bool.and_false]
  · have hbit : w.getLsbD i = (2#2).getLsbD (i - 16) := by
      rw [← hop, opField_getLsbD w _ (by omega), Nat.add_sub_cancel' (by omega)]
    have hhigh : i < 8 ∨ 16 ≤ i := by omega
    rw [if_neg hlow, hbit, decide_eq_true hhigh, Bool.and_true]

/-- R73: the canonical word of a decoded word is the word without its ignored bits. -/
theorem encode_decode (w : CommandWord) : encode (decode w) = w &&& ~~~(ignoredMask w) := by
  have hopMask : ~~~0x0FFFF#18 = 0x30000#18 := by decide
  obtain ⟨hop, hd⟩ | ⟨hop, hd⟩ | ⟨hop, hd⟩ | ⟨hop, hd⟩ := decode_cases w
  · have hignored : ignoredMask w = 0x0FFFF#18 := by simp [ignoredMask, hop]
    rw [hd, hignored, hopMask, and_opMask, hop]
    rfl
  · have hignored : ignoredMask w = 0x00000#18 := by simp [ignoredMask, hop]
    rw [hd, hignored, encode_seed_fields, ← hop, seedOperand, opField_append_argField]
    exact BitVec.and_allOnes.symm
  · have hignored : ignoredMask w = 0x0FF00#18 := by simp [ignoredMask, hop]
    rw [hd, hignored, encode_fold_byteOperand hop]
  · have hignored : ignoredMask w = 0x0FFFF#18 := by simp [ignoredMask, hop]
    rw [hd, hignored, hopMask, and_opMask, hop]
    rfl

/-- Clearing bits gives a word back exactly when they were zero. -/
theorem and_not_eq_self_iff {n : Nat} (w m : BitVec n) : w &&& ~~~m = w ↔ w &&& m = 0#n := by
  rw [BitVec.eq_of_getLsbD_eq_iff, BitVec.eq_of_getLsbD_eq_iff]
  refine forall₂_congr fun i hi => ?_
  simp [hi]

theorem encode_decode_eq_self_iff (w : CommandWord) : encode (decode w) = w ↔ isCanonical w = true := by
  rw [encode_decode, and_not_eq_self_iff, isCanonical, decide_eq_true_iff]

@[simp] theorem isCanonical_encode (i : Instr) : isCanonical (encode i) = true := by
  rw [← encode_decode_eq_self_iff, decode_encode]

theorem encode_injective : Function.Injective encode :=
  Function.LeftInverse.injective decode_encode

end Sys2Proof
end

section
/-! SUPPORT. What the assembler emits are encodings of commands, and literals are checked against their range (R71, R72). -/

namespace Sys2Proof.Machine

theorem except_bind_eq_ok {ε α β : Type} {x : Except ε α} {f : α → Except ε β} {b : β} :
    x.bind f = .ok b ↔ ∃ a, x = .ok a ∧ f a = .ok b := by
  cases x <;> simp [Except.bind]

theorem except_map_eq_ok {ε α β : Type} {x : Except ε α} {f : α → β} {b : β} :
    x.map f = .ok b ↔ ∃ a, x = .ok a ∧ f a = b := by
  cases x <;> simp [Except.map]

theorem assembleLine_canonical {line : List Char} {ws : List CommandWord} (h : assembleLine line = .ok ws) :
    ∀ w ∈ ws, isCanonical w = true := by
  obtain ⟨ts, -, hts⟩ := except_bind_eq_ok.mp h
  obtain ⟨is, -, rfl⟩ := except_map_eq_ok.mp hts
  intro w hw
  obtain ⟨i, -, rfl⟩ := List.mem_map.mp hw
  exact isCanonical_encode i

theorem assemble_canonical {lines : List (List Char)} {ws : List CommandWord} (h : assemble lines = .ok ws) :
    ∀ w ∈ ws, isCanonical w = true := by
  induction lines generalizing ws with
  | nil =>
    cases h
    exact List.forall_mem_nil _
  | cons line lines ih =>
    obtain ⟨first, hfirst, hmap⟩ := except_bind_eq_ok.mp h
    obtain ⟨rest, hrest, rfl⟩ := except_map_eq_ok.mp hmap
    exact List.forall_mem_append.mpr ⟨assembleLine_canonical hfirst, ih hrest⟩

theorem seedLiteral_of_value {ds : List Char} {n : Nat} (h : literalValue ds = .ok n) :
    seedLiteral ds = if n < 65536 then .ok (BitVec.ofNat 16 n) else .error .literalOutOfRange := by
  simp [seedLiteral, h, Except.bind, seedLiteralOk]

theorem byteLiteral_of_value {ds : List Char} {n : Nat} (h : literalValue ds = .ok n) :
    byteLiteral ds = if n < 256 then .ok (BitVec.ofNat 8 n) else .error .literalOutOfRange := by
  simp [byteLiteral, h, Except.bind, byteLiteralOk]

end Sys2Proof.Machine
end

section
/-! The remaining statements about the encoding (30_encoding.md). -/

open Sys2Proof Sys2Proof.Machine

/-- Settles O16, by the four values of `OP`: each row has its own. -/
theorem everyWordMatchesOneRow : Obligations.EveryWordMatchesOneRow := by
  intro w
  have hone (row : OpcodeRow) (hrow : row ∈ opcodeTable) (hname : row.mnemonic = mnemonicOf (decode w))
      (hop : opField w = opField row.matchBits) : ∃ row ∈ opcodeTable,
        rowMatches row w = true ∧ row.mnemonic = mnemonicOf (decode w) ∧
          ∀ other ∈ opcodeTable, rowMatches other w = true → other = row := by
    obtain ⟨hmatches, hunique⟩ := matches_one_row hrow hop
    exact ⟨row, hrow, hmatches, hname, hunique⟩
  obtain ⟨hop, hd⟩ | ⟨hop, hd⟩ | ⟨hop, hd⟩ | ⟨hop, hd⟩ := decode_cases w
  · exact hone ⟨"NOP", 0x00000#18, 0x30000#18⟩ (by decide) (by rw [hd]; rfl) hop
  · exact hone ⟨"SEED", 0x10000#18, 0x30000#18⟩ (by decide) (by rw [hd]; rfl) hop
  · exact hone ⟨"FOLD", 0x20000#18, 0x30000#18⟩ (by decide) (by rw [hd]; rfl) hop
  · exact hone ⟨"READ", 0x30000#18, 0x30000#18⟩ (by decide) (by rw [hd]; rfl) hop

/-- Settles O22: the canonical word of a decoded word, and that encoding is injective. -/
theorem encodeOfDecode : Obligations.EncodeOfDecode := by
  refine ⟨encode_decode, encode_decode_eq_self_iff, fun v w => ?_⟩
  rw [← encode_decode, ← encode_decode, encode_injective.eq_iff]

/-- Settles O23, by running the decoder on the words. -/
theorem sampleWordsDecode : Obligations.SampleWordsDecode := by
  unfold Obligations.SampleWordsDecode
  decide

/-- Settles O24: an emitted word encodes a command, and a literal passes exactly when its check does. -/
theorem assemblerEmitsCanonicalWords : Obligations.AssemblerEmitsCanonicalWords :=
  ⟨fun _ _ h => assemble_canonical h, fun _ _ h => ⟨seedLiteral_of_value h, byteLiteral_of_value h⟩⟩

end

section
/-! SUPPORT. The machine is the engine of its own parameters, and its commands by the external state (R9, R30). -/

namespace Sys2Proof.Machine

theorem exec_eq_execWith : exec = execWith Config.params := by
  funext i s
  cases i with
  | nop | seed | fold | read => rfl

theorem step_eq_stepWith (s : State) : step s = stepWith Config.params s := by
  rw [step, exec_eq_execWith, stepWith]

end Sys2Proof.Machine

namespace Sys2Proof.Safety

open Sys2Proof.Machine

/-- The register holds `In` of the external state (R30). -/
theorem externalState_eq_some {p : Params} {s : State} {E : Word} :
    externalState p s = some E ↔ s.crc = some (inTransform p E) := by
  rw [externalState, Option.map_eq_some_iff]
  constructor
  · rintro ⟨r, hr, rfl⟩
    rw [inTransform_outTransform, hr]
  · intro h
    exact ⟨_, h, outTransform_inTransform p E⟩

end Sys2Proof.Safety
end

section
/-! The remaining statements of 00_scope.md and 10_state.md. -/

open Sys2Proof Sys2Proof.Machine Sys2Proof.Safety

/-- Settles O1, by the values of the shifts and extensions of bit vectors. -/
theorem shiftsAreTruncatedArithmetic : Obligations.ShiftsAreTruncatedArithmetic := by
  refine fun v b k => ⟨?_, ?_, BitVec.toNat_setWidth_of_le (by decide), BitVec.toNat_setWidth_of_le (by decide),
    BitVec.toNat_setWidth_of_le (by decide), BitVec.toInt_signExtend_of_le (by decide)⟩
  · rw [shl16, BitVec.toNat_shiftLeft, Nat.shiftLeft_eq]
  · rw [shr16, BitVec.toNat_ushiftRight, Nat.shiftRight_eq_div_pow]

/-- Settles O4: the two executions are the same function, so the two steps are. -/
theorem machineIsTheConfiguredEngine : Obligations.MachineIsTheConfiguredEngine :=
  fun i s => ⟨by rw [exec_eq_execWith], step_eq_stepWith s⟩

/-- Settles O5, by the frames of the ports and of the responses; `READ` responds and writes no register. -/
theorem commandsLeaveTheRestUnchanged : Obligations.CommandsLeaveTheRestUnchanged := by
  intro i s t h
  obtain ⟨hinputs, hready⟩ := exec_keeps_inputs_cmdReady h
  refine ⟨hinputs, hready, fun hi => exec_keeps_responses hi h, ?_⟩
  rintro (rfl | rfl)
  · cases (exec_nop s).symm.trans h
    rfl
  · obtain ⟨r, -, rfl⟩ := exec_read_next h
    rfl

/-- Settles O6: `SEED` overwrites the one field in which the states differ, and `NOP` leaves the states as they are. -/
theorem nopAndSeedDoNotReadTheRegister : Obligations.NopAndSeedDoNotReadTheRegister := by
  intro s t S hsame
  obtain ⟨-, -, hseed, -⟩ := seedLoadsTheRegister
  exact ⟨hseed S s t hsame, s, t, exec_nop s, exec_nop t, hsame⟩

/-- Settles O7: on the register, which holds `In` of the external state, each command does what its own rule says. -/
theorem commandsActOnTheExternalState : Obligations.CommandsActOnTheExternalState := by
  refine ⟨fun s S => ⟨_, exec_seed S s, externalState_eq_some.mpr (State.writeCrc_crc ..)⟩, fun s E hE => ⟨?_, fun b => ?_⟩⟩
  · have hcrc := externalState_eq_some.mp hE
    exact ⟨_, exec_read_of_seeded hcrc, by rw [State.respond_rsp, outTransform_inTransform], hE⟩
  · have hcrc := externalState_eq_some.mp hE
    refine ⟨_, exec_fold_of_seeded hcrc b, externalState_eq_some.mpr ?_⟩
    rw [State.writeCrc_crc, crc16, inTransform_outTransform, foldbuf_cons, foldbuf_nil]

end

section
/-! SUPPORT. Runs and the output ports: a run depends on neither `cmd_ready` nor `rsp_valid`, and the machine's run over a schedule
moment by moment (R50, R62). -/

namespace Sys2Proof.Machine

theorem runBy_append (ex : Instr → State → Result) (cs ds : List Instr) (s : State) :
    runBy ex (cs ++ ds) s = andThen (runBy ex cs s) (runBy ex ds) := by
  induction cs generalizing s with
  | nil => rfl
  | cons c cs ih => rw [List.cons_append, runBy_cons, runBy_cons, andThen_assoc, funext ih]

theorem runBy_singleton (ex : Instr → State → Result) (i : Instr) (s : State) : runBy ex [i] s = ex i s.lowerRsp := by
  rw [runBy_cons]
  cases ex i s.lowerRsp <;> rfl

/-- A command that finds the port low raises it exactly if it is `READ` (R63). -/
theorem exec_raises_rsp_iff {i : Instr} {s t : State} (hrsp : s.rsp = none) (h : exec i s = .next t) :
    t.rsp.isSome = true ↔ i = .read := by
  by_cases hi : i = .read
  · subst hi
    obtain ⟨r, -, rfl⟩ := exec_read_next h
    exact iff_of_true rfl rfl
  · obtain ⟨hkeep, -⟩ := exec_keeps_responses hi h
    rw [hkeep, hrsp]
    exact iff_of_false Bool.false_ne_true hi

theorem exec_inputs_cmdReady (i : Instr) (s : State) (b : Bool) (ms : List Moment) :
    exec i { s with cmdReady := b, inputs := ms } =
      andThen (exec i s) fun t => .next { t with cmdReady := b, inputs := ms } := by
  have hready := exec_cmdReady i { s with inputs := ms } b
  rw [exec_inputs, andThen_assoc] at hready
  exact hready

/-- The host's run of the machine is the run of the engine of its own parameters. -/
theorem core_run_eq_stepsWith (n : Nat) (s : State) :
    Host.Core.run Sys2Proof.core n s = stepsWith Config.params n s := by
  induction n generalizing s with
  | zero => rfl
  | succ n ih =>
    rw [core_run_succ, stepsWith, step_eq_stepWith]
    exact congrArg (andThen _) (funext ih)

theorem stepsWith_succ (n : Nat) (s : State) :
    stepsWith Config.params (n + 1) s = andThen (step s) (stepsWith Config.params n) := by
  rw [stepsWith, step_eq_stepWith]

/-- One moment at which a word is accepted, in the machine's run. -/
theorem stepsWith_accepted {m : Moment} {w : CommandWord} (hm : m.resets = false) (hw : m.accepted = some w) (n : Nat)
    (ms : List Moment) (s : State) :
    stepsWith Config.params (n + 1) { s with inputs := m :: ms } =
      andThen (exec (decode w) s.lowerRsp) fun t =>
        stepsWith Config.params n { t with cmdReady := true, inputs := ms } := by
  have hstep : step { s with inputs := m :: ms } =
      exec (decode w) { s.lowerRsp with cmdReady := true, inputs := ms } := step_of_accepted rfl hm hw
  rw [stepsWith_succ, hstep, exec_inputs_cmdReady (decode w) s.lowerRsp true ms, andThen_assoc]
  rfl

/-- One moment without reset at which nothing is accepted, in the machine's run. -/
theorem stepsWith_not_accepted {m : Moment} (hm : m.resets = false) (hw : m.accepted = none) (n : Nat)
    (ms : List Moment) (s : State) :
    stepsWith Config.params (n + 1) { s with inputs := m :: ms } =
      stepsWith Config.params n { s with cmdReady := m.cmdReady, rsp := none, inputs := ms } := by
  rw [stepsWith_succ, step_of_not_accepted rfl hm hw, andThen_next]

end Sys2Proof.Machine

namespace Sys2Proof.Safety

open Sys2Proof.Machine

theorem withoutPorts_andThen (x : Result) (f : State → Result) :
    withoutPorts (andThen x f) = andThen x fun t => withoutPorts (f t) :=
  andThen_assoc ..

/-- Up to the output ports, a run does not depend on the output ports before it. -/
theorem withoutPorts_runBy (cs : List Instr) (s : State) (b : Bool) (v : Option Word) :
    withoutPorts (runBy exec cs { s with cmdReady := b, rsp := v }) = withoutPorts (runBy exec cs s) := by
  induction cs generalizing s v with
  | nil => rfl
  | cons c cs ih =>
    have hexec : exec c (State.lowerRsp { s with cmdReady := b, rsp := v }) =
        andThen (exec c s.lowerRsp) fun t => .next { t with cmdReady := b } := exec_cmdReady c s.lowerRsp b
    rw [runBy_cons, runBy_cons, hexec, andThen_assoc, withoutPorts_andThen, withoutPorts_andThen]
    congr 1
    funext t
    exact ih t t.rsp

theorem acceptedWords_cons_some {m : Moment} {w : CommandWord} (h : m.accepted = some w) (ms : List Moment) :
    acceptedWords (m :: ms) = w :: acceptedWords ms := List.filterMap_cons_some h

theorem acceptedWords_cons_none {m : Moment} (h : m.accepted = none) (ms : List Moment) :
    acceptedWords (m :: ms) = acceptedWords ms := List.filterMap_cons_none h

/-- Up to the output ports, the machine's run over a schedule without reset is the run of the words accepted in it, by induction on
the moments: an idle one changes the ports alone. -/
theorem withoutPorts_stepsWith {ms : List Moment} (hms : ResetFree ms) (rest : List Moment) (s : State) :
    withoutPorts (stepsWith Config.params ms.length { s with inputs := ms ++ rest }) =
      withoutPorts (runBy exec ((acceptedWords ms).map decode) { s with inputs := rest }) := by
  induction ms generalizing s with
  | nil => rfl
  | cons m ms ih =>
    obtain ⟨hm, hms⟩ := List.forall_mem_cons.mp hms
    rw [List.length_cons, List.cons_append]
    cases hw : m.accepted with
    | none =>
      rw [stepsWith_not_accepted hm hw, acceptedWords_cons_none hw]
      exact (ih hms { s with cmdReady := m.cmdReady, rsp := none }).trans
        (withoutPorts_runBy _ { s with inputs := rest } m.cmdReady none)
    | some w =>
      have hexec : exec (decode w) (State.lowerRsp { s with inputs := rest }) =
          andThen (exec (decode w) s.lowerRsp) fun t => .next { t with inputs := rest } :=
        exec_inputs (decode w) s.lowerRsp rest
      rw [stepsWith_accepted hm hw, acceptedWords_cons_some hw, List.map_cons, runBy_cons, hexec, andThen_assoc,
        withoutPorts_andThen, withoutPorts_andThen]
      congr 1
      funext t
      exact (ih hms { t with cmdReady := true }).trans (withoutPorts_runBy _ { t with inputs := rest } true t.rsp)

/-- Where every moment accepts a word, the machine's run is the run of the words to the last field. -/
theorem stepsWith_accepting (ws : List CommandWord) (rest : List Moment) (s : State) :
    stepsWith Config.params ws.length { s with inputs := ws.map Moment.accepting ++ rest } =
      runBy exec (ws.map decode) { s with cmdReady := s.cmdReady || !ws.isEmpty, inputs := rest } := by
  induction ws generalizing s with
  | nil =>
    have hready : (s.cmdReady || !([] : List CommandWord).isEmpty) = s.cmdReady := Bool.or_false _
    rw [hready]
    rfl
  | cons w ws ih =>
    have hready : (s.cmdReady || !(w :: ws).isEmpty) = true := Bool.or_true _
    have hexec : exec (decode w) (State.lowerRsp { s with cmdReady := true, inputs := rest }) =
        andThen (exec (decode w) s.lowerRsp) fun t => .next { t with cmdReady := true, inputs := rest } :=
      exec_inputs_cmdReady (decode w) s.lowerRsp true rest
    rw [hready, List.length_cons, List.map_cons, List.map_cons, List.cons_append, runBy_cons, hexec, andThen_assoc,
      stepsWith_accepted (Moment.accepting_resets w) (Moment.accepting_accepted w)]
    congr 1
    funext t
    exact ih { t with cmdReady := true }

end Sys2Proof.Safety
end

section
/-! SUPPORT. The step function of R62, an equation per command, and the machine's runs as its left fold. -/

namespace Sys2Proof.Machine

section

variable {w : CommandWord}

theorem specStep_nop (h : decode w = .nop) (p : Params) (c : Option Word) : specStep p c w = .next (c, none) := by
  simp [specStep, h]

theorem specStep_seed {S : Word} (h : decode w = .seed S) (p : Params) (c : Option Word) :
    specStep p c w = .next (some (inTransform p S), none) := by
  simp [specStep, h]

theorem specStep_fold {b : Byte} (h : decode w = .fold b) (p : Params) (r : Word) :
    specStep p (some r) w = .next (some (foldbyte p.poly p.refIn r b), none) := by
  simp [specStep, h]

theorem specStep_fold_unseeded {b : Byte} (h : decode w = .fold b) (p : Params) :
    specStep p none w = .refused .unseeded := by
  simp [specStep, h]

theorem specStep_read (h : decode w = .read) (p : Params) (r : Word) :
    specStep p (some r) w = .next (some r, some (outTransform p r)) := by
  simp [specStep, h]

theorem specStep_read_unseeded (h : decode w = .read) (p : Params) : specStep p none w = .refused .unseeded := by
  simp [specStep, h]

end

/-- R62: executing an accepted word gives the register, the response and the refusal of the step function. -/
theorem exec_decode_eq_specStep (s : State) (w : CommandWord) :
    exec (decode w) s.lowerRsp =
      andThen (specStep Config.params s.crc w) fun a =>
        .next { s with crc := a.1, rsp := a.2, responses := s.responses ++ a.2.toList } := by
  cases hd : decode w with
  | nop =>
    rw [specStep_nop hd, exec_nop, andThen_next, Option.toList_none, List.append_nil]
    rfl
  | seed S =>
    rw [specStep_seed hd, exec_seed, andThen_next, Option.toList_none, List.append_nil]
    rfl
  | fold b =>
    cases hc : s.crc with
    | none => rw [specStep_fold_unseeded hd, exec_fold, State.readCrc_none (s := s.lowerRsp) hc, andThen_refused]
    | some r =>
      rw [specStep_fold hd, exec_fold_of_seeded (s := s.lowerRsp) hc, andThen_next, Option.toList_none, List.append_nil]
      rfl
  | read =>
    cases hc : s.crc with
    | none => rw [specStep_read_unseeded hd, exec_read, State.readCrc_none (s := s.lowerRsp) hc, andThen_refused]
    | some r =>
      rw [specStep_read hd, exec_read_of_seeded (s := s.lowerRsp) hc, andThen_next, Option.toList_some, ← hc]
      rfl

theorem specStep_next_of_seeded (p : Params) (w : CommandWord) (r : Word) : ∃ a, specStep p (some r) w = .next a := by
  cases hd : decode w with
  | nop => exact ⟨_, specStep_nop hd p _⟩
  | seed S => exact ⟨_, specStep_seed hd p _⟩
  | fold b => exact ⟨_, specStep_fold hd p r⟩
  | read => exact ⟨_, specStep_read hd p r⟩

theorem specStep_next_of_unseeded_iff (p : Params) (w : CommandWord) :
    (∃ a, specStep p none w = .next a) ↔ decode w = .nop ∨ ∃ S, decode w = .seed S := by
  cases hd : decode w with
  | nop => simp [specStep_nop hd]
  | seed S => simp [specStep_seed hd]
  | fold b => simp [specStep_fold_unseeded hd]
  | read => simp [specStep_read_unseeded hd]

theorem runWords_cons (f : StepFunction) (w : CommandWord) (ws : List CommandWord) (c : Option Word) :
    runWords f (w :: ws) c =
      andThen (f c w) fun a => andThen (runWords f ws a.1) fun b => .next (b.1, a.2.toList ++ b.2) := rfl

/-- A run of decoded words is the left fold of the step function over the words, in register, responses and refusal. -/
theorem runBy_eq_runWords (ws : List CommandWord) (s : State) :
    andThen (runBy exec (ws.map decode) s) (fun t => .next (t.crc, t.responses)) =
      andThen (runWords (specStep Config.params) ws s.crc) fun a => .next (a.1, s.responses ++ a.2) := by
  induction ws generalizing s with
  | nil => simp [runWords]
  | cons w ws ih =>
    rw [List.map_cons, runBy_cons, runWords_cons, exec_decode_eq_specStep, andThen_assoc, andThen_assoc, andThen_assoc]
    congr 1
    funext a
    rw [andThen_next, ih, andThen_assoc]
    simp only [andThen_next, List.append_assoc]

end Sys2Proof.Machine
end

section
/-! SUPPORT. A run of one engine of several, and its place in an interleaving (R51, R141). -/

namespace Sys2Proof.Machine

/-- A refused engine stays as it is in every run (U1). -/
theorem Engine.run_of_refused {e : Engine} {q : Refusal} (h : e.refusal = some q) (as : List Activity) :
    e.run as = e := by
  induction as with
  | nil => rfl
  | cons a as ih => rw [Engine.run_cons, Engine.act_of_refused h, ih]

/-- The run of an engine goes on from the state after its first activity, unless that is refused. -/
theorem Engine.run_cons_outcome {e : Engine} (h : e.refusal = none) (a : Activity) (as : List Activity) :
    (e.run (a :: as)).outcome =
      andThen (a.outcome e.params e.state) fun s => (Engine.run { e with state := s } as).outcome := by
  have hact : e.act a = e.record (a.outcome e.params e.state) := by simp [Engine.act, h]
  rw [Engine.run_cons, hact]
  cases a.outcome e.params e.state with
  | next s => rfl
  | fault f => exact nomatch f
  | refused q =>
    have hrefused : (e.record (.refused q)).refusal = some q := rfl
    show ((e.record (.refused q)).run as).outcome = .refused q
    rw [Engine.run_of_refused hrefused]
    rfl

theorem Engine.run_accepts_outcome (is : List Instr) {e : Engine} (h : e.refusal = none) :
    (e.run (is.map .accepts)).outcome = runBy (execWith e.params) is e.state := by
  induction is generalizing e with
  | nil => simp [Engine.outcome, h]
  | cons i is ih =>
    rw [List.map_cons, Engine.run_cons_outcome h, runBy_cons, Activity.outcome]
    congr 1
    funext s
    exact ih h

theorem Engine.run_serves_outcome (n : Nat) {e : Engine} (h : e.refusal = none) :
    (e.run (List.replicate n .serves)).outcome = stepsWith e.params n e.state := by
  induction n generalizing e with
  | zero => simp [Engine.outcome, h, stepsWith]
  | succ n ih =>
    rw [List.replicate_succ, Engine.run_cons_outcome h, stepsWith, Activity.outcome]
    congr 1
    funext s
    exact ih h

theorem runInterleaved_length (cs : List (Nat × Activity)) (es : List Engine) :
    (runInterleaved cs es).length = es.length := by
  induction cs generalizing es with
  | nil => rfl
  | cons c cs ih => rw [runInterleaved_cons, ih, actAt_length]

/-- Each engine ends as its own activities leave it, by induction on the interleaving. -/
theorem runInterleaved_getElem? (cs : List (Nat × Activity)) {es : List Engine} {k : Nat} {e : Engine}
    (h : es[k]? = some e) : (runInterleaved cs es)[k]? = some (e.run (streamOf k cs)) := by
  induction cs generalizing es e with
  | nil => exact h
  | cons c cs ih =>
    have hact := actAt_getElem? es c.1 k c.2
    rw [runInterleaved_cons, streamOf_cons]
    by_cases hk : c.1 = k
    · rw [if_pos hk, h] at hact
      rw [if_pos hk, ih hact, Engine.run_cons]
    · rw [if_neg hk, h] at hact
      rw [if_neg hk, ih hact]

end Sys2Proof.Machine
end

section
/-! The statements about runs: 20_memory.md, and the step function and the response port of 30_encoding.md. -/

open Sys2Proof Sys2Proof.Machine Sys2Proof.Safety

/-- Settles O8, by induction on the schedule. -/
theorem acceptedWordsRunInOrder : Obligations.AcceptedWordsRunInOrder :=
  ⟨fun _ rest s hms => (congrArg withoutPorts (core_run_eq_stepsWith ..)).trans (withoutPorts_stepsWith hms rest s),
    fun ws rest s => (core_run_eq_stepsWith ..).trans (stepsWith_accepting ws rest s)⟩

/-- Settles O9: neither the register nor the responses are seen at the ports, so the run of the accepted words gives them, and each
of its commands is one step of the step function. -/
theorem runsFoldTheStepFunction : Obligations.RunsFoldTheStepFunction := by
  intro ms rest s hms
  have hports (x : Result) : andThen x (fun t => .next (t.crc, t.responses)) =
      andThen (withoutPorts x) fun t => .next (t.crc, t.responses) := by
    rw [withoutPorts, andThen_assoc]
    rfl
  have hrun := hports (stepsWith Config.params ms.length { s with inputs := ms ++ rest })
  rw [withoutPorts_stepsWith hms, ← hports, runBy_eq_runWords] at hrun
  rw [core_run_eq_stepsWith]
  exact hrun

/-- Settles O10: an activity changes its own engine alone, and an engine that runs alone does what its commands and moments say. -/
theorem interleavingDoesNotMatter : Obligations.InterleavingDoesNotMatter :=
  ⟨fun cs es => ⟨runInterleaved_length cs es, fun _ _ h => runInterleaved_getElem? cs h⟩,
    fun _ h => ⟨fun is => Engine.run_accepts_outcome is h, fun n => Engine.run_serves_outcome n h⟩,
    fun _ _ as h => Engine.run_of_refused h as⟩

/-- Settles O13, by the four commands with and without a value in the register. -/
theorem machineRefinesTheStepFunction : Obligations.MachineRefinesTheStepFunction :=
  ⟨exec_decode_eq_specStep, specStep_next_of_seeded, specStep_next_of_unseeded_iff⟩

/-- Settles O15: the port is low before every command, and only `READ` raises it. -/
theorem responsePortFallsAfterRead : Obligations.ResponsePortFallsAfterRead := by
  refine ⟨fun i s t hi h => ?_, fun cs i s t h => ?_, fun s t h hrsp => ?_⟩
  · obtain ⟨hkeep, -⟩ := exec_keeps_responses hi h
    rw [hkeep, State.lowerRsp_rsp]
  · rw [runBy_append, andThen_eq_next] at h
    obtain ⟨u, -, hlast⟩ := h
    rw [runBy_singleton] at hlast
    exact exec_raises_rsp_iff (State.lowerRsp_rsp u) hlast
  · obtain ⟨-, rfl⟩ | ⟨m, rest, hi, rfl | rfl | ⟨w, hw, hexec⟩⟩ := step_next h
    · cases hrsp
    · cases hrsp
    · cases hrsp
    · exact ⟨m, w, by rw [hi, List.head?_cons], hw, (exec_raises_rsp_iff rfl hexec).mp hrsp⟩

end

section
/-! SUPPORT. The fold of a byte in its other forms: the byte XORed into the high half (R96), and the right-shifting forms, which are the
reflections of the left-shifting ones (R98, R99). -/

namespace Sys2Proof.Machine

theorem bitsMsbFirst_zero : bitsMsbFirst 0#8 = List.replicate 8 false := by decide

theorem bitsLsbFirst_zero : bitsLsbFirst 0#8 = List.replicate 8 false := by decide

/-- A byte in the high half, folded with the same data bits, makes no feedback and is shifted out. -/
theorem bitsteps_inHighHalf (poly : Word) (c : Byte) : bitsteps poly (inHighHalf c) (bitsMsbFirst c) = 0#16 := by
  rw [bitsteps_bitsMsbFirst_eq_table, shl16_inHighHalf, highByte_inHighHalf, BitVec.xor_self, tblEntry_zero, BitVec.xor_zero]

/-- R96: zero data are the byte folded twice, once into the remainder and once into its own image in the high half. -/
theorem foldbyteXorIn_eq_foldbyte (poly : Word) (refIn : Bool) (r : Word) (b : Byte) :
    foldbyteXorIn poly refIn r b = foldbyte poly refIn r b := by
  have hzero (c : Byte) : List.replicate 8 false = bitsMsbFirst (c ^^^ c) := by rw [BitVec.xor_self, bitsMsbFirst_zero]
  rw [foldbyteXorIn, hzero (byteInFoldOrder refIn b), bitsteps_bitsMsbFirst_xor, bitsteps_inHighHalf, BitVec.xor_zero,
    foldbyte_eq_bitsMsbFirst]

/-- A left shift, reflected, is a right shift of the reflection. -/
theorem reflect16_shl16 (v : Word) (k : Nat) : reflect16 (shl16 v k) = shr16 (reflect16 v) k := by
  apply BitVec.eq_of_getLsbD_eq
  intro i hi
  rw [reflect16_getLsbD _ hi, shl16, shr16, BitVec.getLsbD_shiftLeft, BitVec.getLsbD_ushiftRight]
  by_cases hk : k + i < 16
  · have hbit : 15 - (k + i) = 15 - i - k := by omega
    have hle : ¬ 15 - i < k := by omega
    have hlt : 15 - i < 16 := by omega
    rw [reflect16_getLsbD _ hk, hbit, decide_eq_true hlt, decide_eq_false hle]
    rfl
  · have hlt : 15 - i < k := by omega
    rw [BitVec.getLsbD_of_ge (reflect16 v) (k + i) (by omega), decide_eq_true hlt, Bool.not_true, Bool.and_false,
      Bool.false_and]

/-- One right-shifting step on the reflection is the reflection of one step (R98). -/
theorem bitstepR_reflect16 (poly r : Word) (d : Bool) :
    bitstepR (reflect16 poly) (reflect16 r) d = reflect16 (bitstep poly r d) := by
  have hfb : (reflect16 r).getLsbD 0 = r.getLsbD 15 := reflect16_getLsbD r (by decide)
  unfold bitstepR bitstep
  rw [hfb, ← reflect16_shl16]
  cases (r.getLsbD 15).xor d with
  | false => rfl
  | true => exact (reflect16_xor ..).symm

/-- R98: the right-shifting fold on the reflection is the reflection of the fold. -/
theorem foldbyteR_reflect16 (poly r : Word) (b : Byte) :
    foldbyteR poly (reflect16 r) b = reflect16 (foldbyte poly true r b) :=
  List.foldl_hom reflect16 (bitstepR_reflect16 poly)

theorem foldbyteR_eq_reflect16 (poly q : Word) (b : Byte) :
    foldbyteR poly q b = reflect16 (foldbyte poly true (reflect16 q) b) := by
  rw [← foldbyteR_reflect16, reflect16_reflect16]

theorem reflect8_xor (b c : Byte) : reflect8 (b ^^^ c) = reflect8 b ^^^ reflect8 c := by
  apply BitVec.eq_of_getLsbD_eq
  intro i hi
  simp only [BitVec.getLsbD_xor, reflect8_getLsbD _ hi]

theorem highByte_reflect16 (q : Word) : highByte (reflect16 q) = reflect8 (lowByte q) := by
  apply BitVec.eq_of_getLsbD_eq
  intro i hi
  have hbit : 15 - (8 + i) = 0 + (7 - i) := by omega
  have hlow : 7 - i < 8 := by omega
  rw [reflect8_getLsbD _ hi, highByte, lowByte, BitVec.getLsbD_extractLsb', BitVec.getLsbD_extractLsb',
    reflect16_getLsbD _ (by omega), hbit, decide_eq_true hi, decide_eq_true hlow]

theorem reflect16_zext16 (i : Byte) : reflect16 (zext16 i) = inHighHalf (reflect8 i) := by
  apply BitVec.eq_of_getLsbD_eq
  intro j hj
  rw [reflect16_getLsbD _ hj, inHighHalf_getLsbD, zext16, BitVec.getLsbD_setWidth]
  by_cases hlow : j < 8
  · rw [if_pos hlow, BitVec.getLsbD_of_ge i _ (by omega), Bool.and_false, BitVec.getLsbD_zero]
  · have hbit : 7 - (j - 8) = 15 - j := by omega
    have hlt : 15 - j < 16 := by omega
    rw [if_neg hlow, reflect8_getLsbD _ (by omega), hbit, decide_eq_true hlt, Bool.true_and]

/-- R99: an entry of the right-shifting table is the right-shifting fold of a zero byte into its index. -/
theorem rtblEntry_eq_foldbyteR (poly : Word) (i : Byte) : rtblEntry poly i = foldbyteR poly (zext16 i) 0x00#8 := by
  have hzero : bitsInFoldOrder true 0#8 = List.replicate 8 false := bitsLsbFirst_zero
  rw [rtblEntry, tblEntry_eq_zero_data, foldbyteR_eq_reflect16, reflect16_zext16, foldbyte, hzero]

/-- R99: the right-shifting fold by its table, from R95 by reflection. -/
theorem foldbyteR_eq_foldbyteRTable (poly q : Word) (b : Byte) : foldbyteR poly q b = foldbyteRTable poly q b := by
  have hindex : highByte (reflect16 q) ^^^ byteInFoldOrder true b = reflect8 (lowByte q ^^^ b) := by
    rw [highByte_reflect16, reflect8_xor]
    rfl
  rw [foldbyteR_eq_reflect16, ← foldbyteTable_eq_foldbyte, foldbyteTable, hindex, reflect16_xor, reflect16_shl16,
    reflect16_reflect16]
  rfl

/-- One step of the right-shifting engine on the reflected register is a step of the engine of the spec (R98). -/
theorem rightShiftStep_reflect16 {p : Params} (hp : p.refIn = true) (c : Option Word) (w : CommandWord) :
    rightShiftStep p (c.map reflect16) w = andThen (specStep p c w) fun a => .next (a.1.map reflect16, a.2) := by
  cases hd : decode w with
  | nop => simp [rightShiftStep, specStep_nop hd, hd]
  | seed S => simp [rightShiftStep, specStep_seed hd, hd]
  | fold b =>
    cases c with
    | none => simp [rightShiftStep, specStep_fold_unseeded hd, hd]
    | some r => simp [rightShiftStep, specStep_fold hd, hd, foldbyteR_reflect16, hp]
  | read =>
    cases c with
    | none => simp [rightShiftStep, specStep_read_unseeded hd, hd]
    | some r => simp [rightShiftStep, specStep_read hd, hd]

/-- The simulation over a run, by induction on the words. -/
theorem runWords_rightShiftStep {p : Params} (hp : p.refIn = true) (ws : List CommandWord) (c : Option Word) :
    runWords (rightShiftStep p) ws (c.map reflect16) =
      andThen (runWords (specStep p) ws c) fun a => .next (a.1.map reflect16, a.2) := by
  induction ws generalizing c with
  | nil => rfl
  | cons w ws ih =>
    rw [runWords_cons, runWords_cons, rightShiftStep_reflect16 hp, andThen_assoc, andThen_assoc]
    congr 1
    funext a
    rw [andThen_next, ih, andThen_assoc, andThen_assoc]
    rfl

end Sys2Proof.Machine
end

section
/-! SUPPORT. The reduction as a linear map (R100, R124), and when it can be undone: the constant term of `G` is the only bit by which
a step tells what it shifted out (R100, R125). -/

namespace Sys2Proof.Machine

theorem byteInFoldOrder_xor (refIn : Bool) (b c : Byte) :
    byteInFoldOrder refIn (b ^^^ c) = byteInFoldOrder refIn b ^^^ byteInFoldOrder refIn c := by
  cases refIn with
  | false => rfl
  | true => exact reflect8_xor b c

theorem foldbyte_xor (poly : Word) (refIn : Bool) (r q : Word) (b c : Byte) :
    foldbyte poly refIn (r ^^^ q) (b ^^^ c) = foldbyte poly refIn r b ^^^ foldbyte poly refIn q c := by
  simp only [foldbyte_eq_bitsMsbFirst, byteInFoldOrder_xor, bitsteps_bitsMsbFirst_xor]

@[simp] theorem foldbyte_zero (poly : Word) (refIn : Bool) : foldbyte poly refIn 0#16 0#8 = 0#16 := by
  rw [foldbyte_eq_bitsMsbFirst, byteInFoldOrder_zero, bitsMsbFirst_zero, bitsteps_zero_data]

/-- With `POLY[0] = 1`, bit 0 of the result is the feedback, which gives back the bit shifted out. -/
theorem bitstep_injective {poly : Word} (h : poly.getLsbD 0 = true) (d : Bool) :
    Function.Injective fun r => bitstep poly r d := by
  intro r q heq
  have hbit (i : Nat) (hi : i < 16) := congrArg (BitVec.getLsbD · i) heq
  have htop : r.getLsbD 15 = q.getLsbD 15 := by
    have h0 : (bitstep poly r d).getLsbD 0 = (bitstep poly q d).getLsbD 0 := hbit 0 (by decide)
    rw [bitstep_getLsbD _ _ _ (by decide), bitstep_getLsbD _ _ _ (by decide), h] at h0
    simpa using h0
  apply BitVec.eq_of_getLsbD_eq
  intro i hi
  by_cases hi15 : i = 15
  · rw [hi15, htop]
  · have hstep : (bitstep poly r d).getLsbD (i + 1) = (bitstep poly q d).getLsbD (i + 1) := hbit (i + 1) (by omega)
    rw [bitstep_getLsbD _ _ _ (by omega), bitstep_getLsbD _ _ _ (by omega), htop] at hstep
    simpa using hstep

theorem bitsteps_injective {poly : Word} (h : poly.getLsbD 0 = true) (ds : List Bool) :
    Function.Injective fun r => bitsteps poly r ds := by
  induction ds with
  | nil => exact Function.injective_id
  | cons d ds ih => exact ih.comp (bitstep_injective h d)

/-- With `POLY[0] = 0`, no feedback reaches bit 0, so it is zero after any step. -/
theorem bitsteps_getLsbD_zero {poly : Word} (h : poly.getLsbD 0 = false) {ds : List Bool} (hds : ds ≠ []) (r : Word) :
    (bitsteps poly r ds).getLsbD 0 = false := by
  rw [← List.dropLast_append_getLast hds, bitsteps_append, bitsteps_cons, bitsteps_nil, bitstep_getLsbD _ _ _ (by decide), h]
  simp

/-- Any number of steps with given data is a bijection of the remainder exactly when `POLY[0] = 1` or there is no step. -/
theorem bitsteps_bijective_iff (poly : Word) (ds : List Bool) :
    Function.Bijective (fun r => bitsteps poly r ds) ↔ poly.getLsbD 0 = true ∨ ds = [] := by
  constructor
  · rintro ⟨-, hsurj⟩
    by_contra hnot
    rw [not_or, Bool.not_eq_true] at hnot
    obtain ⟨heven, hds⟩ := hnot
    obtain ⟨r, hr⟩ := hsurj 1#16
    have hbit := bitsteps_getLsbD_zero heven hds r
    rw [show bitsteps poly r ds = 1#16 from hr] at hbit
    cases hbit
  · rintro (hodd | rfl)
    · exact Finite.injective_iff_bijective.mp (bitsteps_injective hodd ds)
    · exact Function.bijective_id

theorem foldbyte_bijective_iff (poly : Word) (refIn : Bool) (b : Byte) :
    Function.Bijective (fun r => foldbyte poly refIn r b) ↔ poly.getLsbD 0 = true := by
  have hds : bitsInFoldOrder refIn b ≠ [] := List.ne_nil_of_length_pos (by simp)
  exact (bitsteps_bijective_iff poly _).trans (or_iff_left hds)

end Sys2Proof.Machine
end

section
/-! The remaining statements of 41_fold.md. -/

open Sys2Proof Sys2Proof.Machine Sys2Proof.Safety

/-- Settles O34: one step multiplies by x and adds the data bit at x^16, modulo `G`. -/
theorem foldIsPolynomialRemainder : Obligations.FoldIsPolynomialRemainder :=
  ⟨polyOf_bitsteps, fun poly r refIn b => polyOf_foldbyte poly refIn r b⟩

/-- Settles O36: by linearity the byte splits into the remainder's high byte, which is only shifted out, and the table's index. -/
theorem tableFoldEqualsBitSerialFold : Obligations.TableFoldEqualsBitSerialFold :=
  fun poly r refIn b => foldbyteTable_eq_foldbyte poly refIn r b

/-- Settles O37, by linearity: the byte folded into its own image in the high half leaves zero. -/
theorem xorInFoldEqualsBitSerialFold : Obligations.XorInFoldEqualsBitSerialFold :=
  fun poly r refIn b => foldbyteXorIn_eq_foldbyte poly refIn r b

/-- Settles O38: each step commutes with reflection, so each fold and each run does. -/
theorem rightShiftingEngineConforms : Obligations.RightShiftingEngineConforms :=
  ⟨foldbyteR_reflect16, fun _ ws c hp => runWords_rightShiftStep hp ws c⟩

/-- Settles O39: the reflections of the table with zero data and of the fold by the table. -/
theorem rightShiftingTable : Obligations.RightShiftingTable :=
  fun poly => ⟨rtblEntry_eq_foldbyteR poly, foldbyteR_eq_foldbyteRTable poly⟩

/-- Settles O40: linearity of the step, and the bit by which a step can be undone. -/
theorem foldIsLinear : Obligations.FoldIsLinear :=
  fun poly refIn => ⟨foldbyte_xor poly refIn, foldbyte_zero poly refIn, foldbyte_bijective_iff poly refIn⟩

end

section
/-! SUPPORT. Runs of `FOLD`s and calls in an engine of parameters `p`, as one write of the register and one response (R110, R116), and
where such a run is refused (R112, R152). -/

namespace Sys2Proof.Machine

theorem execWith_fold_of_seeded (p : Params) {s : State} {r : Word} (h : s.crc = some r) (b : Byte) :
    execWith p (.fold b) s = .next (s.writeCrc (foldbyte p.poly p.refIn r b)) := by
  rw [execWith, foldWith, State.readCrc_some h, foldByImpl_eq_foldbyte]

theorem execWith_read_of_seeded (p : Params) {s : State} {r : Word} (h : s.crc = some r) :
    execWith p .read s = .next (s.respond (outTransform p r)) :=
  State.readCrc_some h _

theorem contCommands_cons (b : Byte) (B : List Byte) : contCommands (b :: B) = .fold b :: contCommands B := rfl

theorem contCommands_append (B C : List Byte) : contCommands (B ++ C) = contCommands B ++ contCommands C :=
  List.map_append

/-- R116: the `FOLD`s of a buffer write its fold; the port has fallen if there was one. -/
theorem runBy_contCommands (p : Params) (B : List Byte) {s : State} {r : Word} (h : s.crc = some r) :
    runBy (execWith p) (contCommands B) s =
      .next { s.writeCrc (foldbuf p r B) with rsp := if B = [] then s.rsp else none } := by
  induction B generalizing s r with
  | nil =>
    rw [foldbuf_nil, State.writeCrc_self h]
    rfl
  | cons b B ih =>
    have hfold := execWith_fold_of_seeded p (s := s.lowerRsp) h b
    rw [contCommands_cons, runBy_cons, hfold, andThen_next, ih (State.writeCrc_crc ..), foldbuf_cons,
      State.writeCrc_writeCrc, State.writeCrc_rsp, State.lowerRsp_rsp, ite_self, if_neg (List.cons_ne_nil b B)]
    rfl

theorem runBy_contCommands_read (p : Params) (B : List Byte) {s : State} {r : Word} (h : s.crc = some r) :
    runBy (execWith p) (contCommands B ++ [.read]) s =
      .next ((s.writeCrc (foldbuf p r B)).respond (outTransform p (foldbuf p r B))) := by
  rw [runBy_append, runBy_contCommands p B h, andThen_next, runBy_singleton, execWith_read_of_seeded p rfl]
  rfl

/-- R110: the call writes the fold of its buffer into `In(S)` and responds `crc16(S, B)`; nothing else remains of it. -/
theorem runBy_callCommands (p : Params) (S : Word) (B : List Byte) (s : State) :
    runBy (execWith p) (callCommands S B) s =
      .next ((s.writeCrc (foldbuf p (inTransform p S) B)).respond (crc16 p S B)) := by
  have hseed : execWith p (.seed S) s.lowerRsp = .next (s.lowerRsp.writeCrc (inTransform p S)) := rfl
  rw [callCommands, runBy_cons, hseed, andThen_next, runBy_contCommands_read p B (State.writeCrc_crc ..)]
  rfl

theorem exec_callCommands_responds (S : Word) (B : List Byte) (s : State) :
    ∃ t, runBy exec (callCommands S B) s = .next t ∧ t.rsp = some (crc16 Config.params S B) := by
  have hcall := runBy_callCommands Config.params S B s
  rw [← exec_eq_execWith] at hcall
  exact ⟨_, hcall, rfl⟩

theorem exec_callCommands_rsp {S v : Word} {B : List Byte} {s t : State} (h : runBy exec (callCommands S B) s = .next t)
    (hv : t.rsp = some v) : v = crc16 Config.params S B := by
  obtain ⟨u, hu, hrsp⟩ := exec_callCommands_responds S B s
  have htu : t = u := Host.Outcome.next.inj (h.symm.trans hu)
  rw [htu, hrsp] at hv
  exact (Option.some.inj hv).symm

/-- A call continued by further bytes and a `READ` responds twice (R115). -/
theorem exec_callCommands_continued (S : Word) (B C : List Byte) (s : State) :
    ∃ u, runBy exec (callCommands S B ++ (contCommands C ++ [.read])) s = .next u ∧
      u.responses = s.responses ++ [crc16 Config.params S B, crc16 Config.params S (B ++ C)] := by
  have hcrc : ((s.writeCrc (foldbuf Config.params (inTransform Config.params S) B)).respond
      (crc16 Config.params S B)).crc = some (foldbuf Config.params (inTransform Config.params S) B) := rfl
  have hcont := runBy_contCommands_read Config.params C hcrc
  rw [← foldbuf_append] at hcont
  rw [runBy_append, exec_eq_execWith, runBy_callCommands, andThen_next, hcont]
  refine ⟨_, rfl, ?_⟩
  rw [State.respond_responses, State.writeCrc_responses, State.respond_responses, State.writeCrc_responses,
    List.append_assoc, List.singleton_append, crc16, crc16]

theorem runBy_contCommands_unseeded (b : Byte) (B : List Byte) {s : State} (h : s.crc = none) :
    runBy exec (contCommands (b :: B)) s = .refused .unseeded := by
  rw [contCommands_cons, runBy_cons, exec_fold, State.readCrc_none (s := s.lowerRsp) h, andThen_refused]

section

variable (ex : Instr → State → Result) (S : Word) {B : List Byte} {n : Nat} (s : State)

theorem callWithLength_of_le (h : n ≤ B.length) :
    callWithLength ex S B n s = runBy ex (callCommands S (B.take n)) s := if_pos h

theorem callWithLength_of_lt (h : B.length < n) : callWithLength ex S B n s = .refused .lengthMismatch :=
  if_neg (Nat.not_le_of_lt h)

theorem contWithLength_of_le (h : n ≤ B.length) :
    contWithLength ex B n s = runBy ex (contCommands (B.take n)) s := if_pos h

theorem contWithLength_of_lt (h : B.length < n) : contWithLength ex B n s = .refused .lengthMismatch :=
  if_neg (Nat.not_le_of_lt h)

end

/-- A call of a fitting length completes in every state (R112). -/
theorem callWithLength_next (S : Word) {B : List Byte} {n : Nat} (s : State) (h : n ≤ B.length) :
    ∃ t, callWithLength exec S B n s = .next t ∧ t.rsp = some (crc16 Config.params S (B.take n)) := by
  rw [callWithLength_of_le exec S s h]
  exact exec_callCommands_responds S (B.take n) s

theorem contWithLength_next {B : List Byte} {n : Nat} {s : State} {r : Word} (h : n ≤ B.length) (hr : s.crc = some r) :
    ∃ t, contWithLength exec B n s = .next t ∧ t.crc = some (foldbuf Config.params r (B.take n)) ∧
      t.responses = s.responses := by
  rw [contWithLength_of_le exec s h, exec_eq_execWith, runBy_contCommands _ _ hr]
  exact ⟨_, rfl, rfl, rfl⟩

/-- Into a register without a value a `CONT` of no byte does nothing, and any other is refused at its first byte (R152). -/
theorem contWithLength_unseeded {B : List Byte} {n : Nat} {s : State} (h : n ≤ B.length) (hs : s.crc = none) :
    contWithLength exec B n s = if n = 0 then .next s else .refused .unseeded := by
  rw [contWithLength_of_le exec s h]
  cases n with
  | zero => rfl
  | succ n =>
    cases B with
    | nil => simp at h
    | cons b B => rw [List.take_succ_cons, runBy_contCommands_unseeded b _ hs, if_neg (Nat.succ_ne_zero n)]

theorem exec_refused_iff {i : Instr} {s : State} {q : Refusal} :
    exec i s = .refused q ↔ q = .unseeded ∧ s.crc = none ∧ (i = .read ∨ ∃ b, i = .fold b) := by
  cases i with
  | nop => simp [exec_nop]
  | seed S => simp [exec_seed]
  | fold b => simp [exec_fold, State.readCrc_refused, and_comm]
  | read => simp [exec_read, State.readCrc_refused, and_comm]

theorem callWithLength_refused_iff {S : Word} {B : List Byte} {n : Nat} {s : State} {q : Refusal} :
    callWithLength exec S B n s = .refused q ↔ q = .lengthMismatch ∧ B.length < n := by
  obtain hle | hlt := le_or_gt n B.length
  · obtain ⟨t, ht, -⟩ := callWithLength_next S s hle
    simp [ht, hle]
  · simp [callWithLength_of_lt exec S s hlt, hlt, eq_comm]

theorem contWithLength_refused_iff {B : List Byte} {n : Nat} {s : State} {q : Refusal} :
    contWithLength exec B n s = .refused q ↔
      (q = .lengthMismatch ∧ B.length < n) ∨ (q = .unseeded ∧ n ≤ B.length ∧ 0 < n ∧ s.crc = none) := by
  obtain hle | hlt := le_or_gt n B.length
  · cases hs : s.crc with
    | none =>
      rw [contWithLength_unseeded hle hs]
      cases n with
      | zero => simp
      | succ n =>
        have hlt : n < B.length := hle
        simp [hlt, hlt.not_ge, eq_comm]
    | some r =>
      obtain ⟨t, ht, -⟩ := contWithLength_next hle hs
      simp [ht, hle]
  · simp [contWithLength_of_lt exec s hlt, hlt, eq_comm]

/-- R153: a run completes exactly when each `FOLD` and `READ` in it finds the register seeded, by induction on the commands. -/
theorem runBy_next_iff_wellSeeded (cs : List Instr) (s : State) :
    (∃ t, runBy exec cs s = .next t) ↔ Safety.WellSeeded s.crc.isSome cs = true := by
  induction cs generalizing s with
  | nil => exact iff_of_true ⟨s, rfl⟩ rfl
  | cons c cs ih =>
    rw [runBy_cons]
    cases c with
    | nop => exact ih s.lowerRsp
    | seed S => exact ih (s.lowerRsp.writeCrc (inTransform Config.params S))
    | fold b =>
      cases hs : s.crc with
      | none =>
        rw [exec_fold, State.readCrc_none (s := s.lowerRsp) hs]
        simp [Safety.WellSeeded]
      | some r =>
        rw [exec_fold_of_seeded (s := s.lowerRsp) hs, andThen_next, ih]
        rfl
    | read =>
      cases hs : s.crc with
      | none =>
        rw [exec_read, State.readCrc_none (s := s.lowerRsp) hs]
        simp [Safety.WellSeeded]
      | some r =>
        rw [exec_read_of_seeded (s := s.lowerRsp) hs, andThen_next, ih, State.respond_crc, State.lowerRsp_crc, hs]
        rfl

/-- R80 in an engine of any parameters, of which `runBy_filter_nop` is this machine's case. -/
theorem runBy_execWith_filter_nop (p : Params) (cs : List Instr) (s : State) :
    andThen (runBy (execWith p) cs s) (fun t => .next t.lowerRsp) =
      andThen (runBy (execWith p) (cs.filter fun i => decide (i ≠ .nop)) s) fun t => .next t.lowerRsp := by
  induction cs generalizing s with
  | nil => rfl
  | cons c cs ih =>
    by_cases hc : c = .nop
    · subst hc
      have hnop : execWith p .nop s.lowerRsp = .next s.lowerRsp := rfl
      rw [List.filter_cons_of_neg (by decide), runBy_cons, hnop, andThen_next, ih, runBy_lowerRsp]
    · rw [List.filter_cons_of_pos (by simpa using hc), runBy_cons, runBy_cons, andThen_assoc, andThen_assoc, funext ih]

end Sys2Proof.Machine
end

section
/-! SUPPORT. Laws of `crc16` as a function: composition (R115), linearity (R124), recovery of the seed (R125), the zero polynomial
(R121). -/

namespace Sys2Proof.Machine

open Sys2Proof.Safety

/-- R115: `In` undoes the `Out` between two calls. -/
theorem crc16_crc16 (p : Params) (S : Word) (B C : List Byte) : crc16 p (crc16 p S B) C = crc16 p S (B ++ C) := by
  rw [crc16, crc16, crc16, inTransform_outTransform, foldbuf_append]

/-- `IMPL` is no argument of `crc16` (R113). -/
theorem crc16_congr {p q : Params} (hpoly : p.poly = q.poly) (hrefIn : p.refIn = q.refIn) (hrefOut : p.refOut = q.refOut)
    (hxorOut : p.xorOut = q.xorOut) (S : Word) (B : List Byte) : crc16 p S B = crc16 q S B := by
  unfold crc16 foldbuf inTransform outTransform
  rw [hpoly, hrefIn, hrefOut, hxorOut]

theorem xorBuffers_length {B C : List Byte} (h : B.length = C.length) : (xorBuffers B C).length = C.length := by
  rw [xorBuffers, List.length_zipWith, h, min_self]

theorem xorBuffers_zero (B : List Byte) : xorBuffers B (List.replicate B.length 0#8) = B := by
  induction B with
  | nil => rfl
  | cons b B ih =>
    have hcons : xorBuffers (b :: B) (List.replicate (B.length + 1) 0#8) =
        (b ^^^ 0#8) :: xorBuffers B (List.replicate B.length 0#8) := rfl
    rw [List.length_cons, hcons, ih, BitVec.xor_zero]

theorem foldbuf_xor (p : Params) : ∀ {B C : List Byte}, B.length = C.length → ∀ r q : Word,
    foldbuf p (r ^^^ q) (xorBuffers B C) = foldbuf p r B ^^^ foldbuf p q C
  | [], [], _, _, _ => rfl
  | b :: B, c :: C, h, r, q => by
    have hcons : xorBuffers (b :: B) (c :: C) = (b ^^^ c) :: xorBuffers B C := rfl
    rw [hcons, foldbuf_cons, foldbyte_xor, foldbuf_xor p (Nat.succ.inj h), foldbuf_cons, foldbuf_cons]

/-- A mask applied to three words is applied once to their sum. -/
theorem xor_mask_three (a b c mask : Word) : (a ^^^ mask) ^^^ (b ^^^ mask) ^^^ (c ^^^ mask) = a ^^^ b ^^^ c ^^^ mask := by
  rw [xor_feedback_cancel, BitVec.xor_assoc (a ^^^ b)]

theorem inTransform_xor_three (p : Params) (a b c : Word) :
    inTransform p (a ^^^ b ^^^ c) = inTransform p a ^^^ inTransform p b ^^^ inTransform p c := by
  cases h : p.refOut with
  | false => simp only [inTransform_of_plain h, xor_mask_three]
  | true => simp only [inTransform_of_reflected h, ← reflect16_xor, xor_mask_three]

theorem outTransform_xor_three (p : Params) (a b c : Word) :
    outTransform p (a ^^^ b ^^^ c) = outTransform p a ^^^ outTransform p b ^^^ outTransform p c := by
  cases h : p.refOut with
  | false => simp only [outTransform_of_plain h, xor_mask_three]
  | true => simp only [outTransform_of_reflected h, reflect16_xor, xor_mask_three]

theorem inTransform_xor_of_no_mask {p : Params} (hmask : p.xorOut = 0#16) (a b : Word) :
    inTransform p (a ^^^ b) = inTransform p a ^^^ inTransform p b := by
  cases h : p.refOut with
  | false => simp only [inTransform_of_plain h, hmask, BitVec.xor_zero]
  | true => simp only [inTransform_of_reflected h, hmask, BitVec.xor_zero, reflect16_xor]

theorem outTransform_xor_of_no_mask {p : Params} (hmask : p.xorOut = 0#16) (a b : Word) :
    outTransform p (a ^^^ b) = outTransform p a ^^^ outTransform p b := by
  cases h : p.refOut with
  | false => simp only [outTransform_of_plain h, hmask, BitVec.xor_zero]
  | true => simp only [outTransform_of_reflected h, hmask, BitVec.xor_zero, reflect16_xor]

/-- R124: `crc16` is affine, as `In`, the fold and `Out` are. -/
theorem crc16_xor_three (p : Params) (S1 S2 S3 : Word) {B1 B2 B3 : List Byte} (h12 : B1.length = B2.length)
    (h23 : B2.length = B3.length) :
    crc16 p S1 B1 ^^^ crc16 p S2 B2 ^^^ crc16 p S3 B3 =
      crc16 p (S1 ^^^ S2 ^^^ S3) (xorBuffers (xorBuffers B1 B2) B3) := by
  have hlen : (xorBuffers B1 B2).length = B3.length := (xorBuffers_length h12).trans h23
  simp only [crc16]
  rw [← outTransform_xor_three, inTransform_xor_three, foldbuf_xor p hlen, foldbuf_xor p h12]

/-- R124: without a mask `crc16` is linear. -/
theorem crc16_xor_of_no_mask {p : Params} (hmask : p.xorOut = 0#16) (S1 S2 : Word) {B1 B2 : List Byte}
    (h : B1.length = B2.length) : crc16 p S1 B1 ^^^ crc16 p S2 B2 = crc16 p (S1 ^^^ S2) (xorBuffers B1 B2) := by
  simp only [crc16]
  rw [← outTransform_xor_of_no_mask hmask, inTransform_xor_of_no_mask hmask, foldbuf_xor p h]

theorem foldOrderBits_eq_nil_iff (refIn : Bool) (B : List Byte) : B.flatMap (bitsInFoldOrder refIn) = [] ↔ B = [] := by
  cases B with
  | nil => exact iff_of_true rfl rfl
  | cons b B => cases refIn <;> exact iff_of_false (List.cons_ne_nil _ _) (List.cons_ne_nil _ _)

/-- R125: between the bijections `In` and `Out` the fold of the buffer's bits decides. -/
theorem crc16_bijective_iff (p : Params) (B : List Byte) :
    Function.Bijective (fun S => crc16 p S B) ↔ p.poly.getLsbD 0 = true ∨ B = [] := by
  have hfold : (fun r => foldbuf p r B) = fun r => bitsteps p.poly r (B.flatMap (bitsInFoldOrder p.refIn)) :=
    funext (foldbuf_eq_bitsteps p B)
  have hcomp : (fun S => crc16 p S B) = outTransform p ∘ (fun r => foldbuf p r B) ∘ inTransform p := rfl
  rw [hcomp, (outTransform_bijective p).of_comp_iff', Function.Bijective.of_comp_iff _ (inTransform_bijective p), hfold,
    bitsteps_bijective_iff, foldOrderBits_eq_nil_iff]

theorem bitstep_zero_poly (r : Word) (d : Bool) : bitstep 0#16 r d = shl16 r 1 := by
  unfold bitstep
  cases (r.getLsbD 15).xor d with
  | false => rfl
  | true => exact BitVec.xor_zero

theorem bitsteps_zero_poly (r : Word) (ds : List Bool) : bitsteps 0#16 r ds = shl16 r ds.length := by
  induction ds generalizing r with
  | nil => simp [shl16]
  | cons d ds ih =>
    rw [bitsteps_cons, bitstep_zero_poly, ih, List.length_cons, shl16, shl16, shl16, ← BitVec.shiftLeft_add, Nat.add_comm]

theorem foldOrderBits_length (refIn : Bool) (B : List Byte) :
    (B.flatMap (bitsInFoldOrder refIn)).length = 8 * B.length := by
  induction B with
  | nil => rfl
  | cons b B ih => rw [List.flatMap_cons, List.length_append, ih, bitsInFoldOrder_length, List.length_cons]; ring

/-- R121: with `POLY = 0x0000` a buffer shifts the remainder by eight places for each of its bytes. -/
theorem foldbuf_of_zero_poly {p : Params} (h : p.poly = 0#16) (r : Word) (B : List Byte) :
    foldbuf p r B = shl16 r (8 * B.length) := by
  rw [foldbuf_eq_bitsteps, h, bitsteps_zero_poly, foldOrderBits_length]

end Sys2Proof.Machine
end

section
/-! SUPPORT. A flipped bit is never lost (R119): it adds `x^n` for some `n` to the data, and `G` divides no power of x unless `POLY`
is zero. -/

namespace Sys2Proof.Safety

open Sys2Proof.Machine

theorem polyOf_coeff {n : Nat} (v : BitVec n) {i : Nat} (hi : i < n) :
    (polyOf v).coeff i = if v.getLsbD i then 1 else 0 := by
  have hterm (j : Nat) : (if v.getLsbD j then Polynomial.X ^ j else 0 : Polynomial (ZMod 2)).coeff i =
      if j = i then (if v.getLsbD i then 1 else 0) else 0 := by
    by_cases hj : j = i
    · subst hj
      cases v.getLsbD j <;> simp
    · cases v.getLsbD j <;> simp [Polynomial.coeff_X_pow, hj, Ne.symm hj]
  rw [polyOf, Polynomial.finsetSum_coeff, Finset.sum_congr rfl fun j _ => hterm j, Finset.sum_ite_eq' _ i,
    if_pos (Finset.mem_range.mpr hi)]

theorem polyOf_eq_zero {n : Nat} {v : BitVec n} (h : polyOf v = 0) : v = 0#n := by
  apply BitVec.eq_of_getLsbD_eq
  intro i hi
  have hcoeff := polyOf_coeff v hi
  rw [h, Polynomial.coeff_zero] at hcoeff
  cases hv : v.getLsbD i with
  | false => rw [BitVec.getLsbD_zero]
  | true => simp [hv] at hcoeff

theorem polyOf_bit {i : Nat} (hi : i < 8) : polyOf (1#8 <<< i) = Polynomial.X ^ i := by
  have hbit : ∀ i < 8, ∀ j < 8, (1#8 <<< i).getLsbD j = decide (j = i) := by decide
  have hterm (j : Nat) (hj : j ∈ Finset.range 8) :
      (if (1#8 <<< i).getLsbD j then Polynomial.X ^ j else 0 : Polynomial (ZMod 2)) =
        if j = i then Polynomial.X ^ j else 0 := by
    rw [hbit i hi j (Finset.mem_range.mp hj)]
    simp
  rw [polyOf, Finset.sum_congr rfl hterm, Finset.sum_ite_eq' _ i, if_pos (Finset.mem_range.mpr hi)]

/-- The powers of x have no other divisors than powers of x, and `G` is one only if it is x^16. -/
theorem not_generator_dvd_X_pow {poly : Word} (h : poly ≠ 0#16) (n : Nat) :
    ¬ generator poly ∣ (Polynomial.X ^ n : Polynomial (ZMod 2)) := by
  intro hdvd
  obtain ⟨i, -, hassoc⟩ := (dvd_prime_pow Polynomial.prime_X n).mp hdvd
  have hpow : generator poly = Polynomial.X ^ i :=
    Polynomial.eq_of_monic_of_associated (generator_monic poly) (Polynomial.monic_X_pow i) hassoc
  have hi : i = 16 := by
    have hdegree := generator_degree poly
    rw [hpow, Polynomial.degree_X_pow] at hdegree
    exact_mod_cast hdegree
  rw [generator, hi, add_eq_left] at hpow
  exact h (polyOf_eq_zero hpow)

theorem dataPoly_append (ds es : List Bool) : dataPoly (ds ++ es) = dataPoly ds * Polynomial.X ^ es.length + dataPoly es := by
  induction ds with
  | nil => simp [dataPoly]
  | cons d ds ih =>
    rw [List.cons_append, dataPoly, dataPoly, ih, List.length_append, pow_add, add_mul, ite_mul, zero_mul, add_assoc]

theorem dataPoly_zeros (n : Nat) : dataPoly (List.replicate n false) = 0 := by
  induction n with
  | zero => rfl
  | succ n ih => rw [List.replicate_succ, dataPoly, ih]; simp

theorem dataPoly_bitsInFoldOrder (refIn : Bool) (b : Byte) :
    dataPoly (bitsInFoldOrder refIn b) = polyOf (byteInFoldOrder refIn b) := by
  rw [← bitsMsbFirst_byteInFoldOrder, dataPoly_bitsMsbFirst]

theorem foldOrderBits_zeros (refIn : Bool) (n : Nat) :
    (List.replicate n 0#8).flatMap (bitsInFoldOrder refIn) = List.replicate (n * 8) false := by
  have hzero : bitsInFoldOrder refIn 0#8 = List.replicate 8 false := by cases refIn <;> decide
  rw [List.flatMap_replicate, hzero, List.flatten_replicate_replicate]

/-- A byte with one bit set has one bit set in fold order. -/
theorem polyOf_byteInFoldOrder_bit (refIn : Bool) {j : Nat} (hj : j < 8) :
    ∃ i, polyOf (byteInFoldOrder refIn (1#8 <<< j)) = Polynomial.X ^ i := by
  have hreflect : ∀ j < 8, reflect8 (1#8 <<< j) = 1#8 <<< (7 - j) := by decide
  cases refIn with
  | false => exact ⟨j, polyOf_bit hj⟩
  | true => exact ⟨7 - j, (congrArg polyOf (hreflect j hj)).trans (polyOf_bit (by omega))⟩

/-- One bit set among zero bytes leaves a remainder that is not zero. -/
theorem foldbuf_bit_ne_zero {p : Params} (h : p.poly ≠ 0#16) {j : Nat} (hj : j < 8) (n : Nat) :
    foldbuf p 0#16 ((1#8 <<< j) :: List.replicate n 0#8) ≠ 0#16 := by
  obtain ⟨i, hi⟩ := polyOf_byteInFoldOrder_bit p.refIn hj
  have hrem : polyOf (foldbuf p 0#16 ((1#8 <<< j) :: List.replicate n 0#8)) =
      Polynomial.X ^ (i + n * 8 + 16) %ₘ generator p.poly := by
    rw [foldbuf_eq_bitsteps, polyOf_bitsteps, polyOf_zero, zero_mul, zero_add, List.flatMap_cons, foldOrderBits_zeros,
      dataPoly_append, dataPoly_zeros, add_zero, dataPoly_bitsInFoldOrder, hi, List.length_replicate, pow_add, pow_add]
  intro hzero
  rw [hzero, polyOf_zero, eq_comm, Polynomial.modByMonic_eq_zero_iff_dvd (generator_monic p.poly)] at hrem
  exact not_generator_dvd_X_pow h _ hrem

/-- By linearity, a change `e` of one byte adds what `e` folds to from zero, followed by zero bytes. -/
theorem foldbuf_change (p : Params) (r : Word) (A C : List Byte) (b e : Byte) :
    foldbuf p r (A ++ (b ^^^ e) :: C) =
      foldbuf p r (A ++ b :: C) ^^^ foldbuf p 0#16 (e :: List.replicate C.length 0#8) := by
  have hchange : (b ^^^ e) :: C = xorBuffers (b :: C) (e :: List.replicate C.length 0#8) :=
    congrArg (List.cons (b ^^^ e)) (xorBuffers_zero C).symm
  have hlen : (b :: C).length = (e :: List.replicate C.length 0#8).length := by simp
  rw [foldbuf_append, foldbuf_append, hchange, ← foldbuf_xor p hlen, BitVec.xor_zero]

/-- R119: a flipped bit changes the checksum, for every polynomial but zero. -/
theorem crc16_flipBit_ne {p : Params} (h : p.poly ≠ 0#16) (S : Word) {B : List Byte} {k j : Nat} (hk : k < B.length)
    (hj : j < 8) : crc16 p S (flipBit B k j) ≠ crc16 p S B := by
  have hflip : flipBit B k j = B.take k ++ (B[k] ^^^ (1#8 <<< j)) :: B.drop (k + 1) := List.modify_eq_take_cons_drop hk
  have hB : B = B.take k ++ B[k] :: B.drop (k + 1) := by rw [List.cons_getElem_drop_succ, List.take_append_drop]
  intro heq
  have hfold : foldbuf p (inTransform p S) (flipBit B k j) = foldbuf p (inTransform p S) B :=
    (outTransform_bijective p).injective heq
  rw [hflip, foldbuf_change, ← hB] at hfold
  exact foldbuf_bit_ne_zero h hj _ ((BitVec.xor_right_inj _).mp (hfold.trans BitVec.xor_zero.symm))

end Sys2Proof.Safety
end

section
/-! The remaining statements: 40_state_transfer.md, 42_call_and_laws.md, 60_exceptions.md, 70_reset_and_hazards.md. -/

open Sys2Proof Sys2Proof.Machine Sys2Proof.Safety

/-- Settles O30: `READ` leaves the register and responds `Out` of it, which `In` in the next `SEED` undoes. -/
theorem seedAndReadRoundTrip : Obligations.SeedAndReadRoundTrip := by
  refine ⟨fun s S => runBy_seed_read S s, fun s t v h hv => ?_, fun s s' t t' h h' hrsp => ?_, fun s S1 S2 => rfl,
    fun s t h => ?_⟩
  · obtain ⟨r, hr, rfl⟩ := exec_read_next h
    cases hv
    exact ⟨_, exec_seed .., by rw [State.writeCrc_crc, inTransform_outTransform, hr]⟩
  · obtain ⟨r, hr, rfl⟩ := exec_read_next h
    obtain ⟨r', hr', rfl⟩ := exec_read_next h'
    have hout : outTransform Config.params r = outTransform Config.params r' := Option.some.inj hrsp
    rw [hr, hr', (outTransform_bijective _).injective hout]
  · rw [runBy_cons, andThen_eq_next] at h
    obtain ⟨u, hu, ht⟩ := h
    obtain ⟨r, hr, rfl⟩ := exec_read_next hu
    have hcrc : (s.lowerRsp.respond (outTransform Config.params r)).lowerRsp.crc = some r := hr
    rw [runBy_singleton, exec_read_of_seeded hcrc] at ht
    cases ht
    exact ⟨_, (runBy_singleton ..).trans hu, rfl, rfl⟩

/-- Settles O42: the call is one write of the register, `In` of the checksum, and one response. -/
theorem callComputesCrc16 : Obligations.CallComputesCrc16 := by
  intro S B s
  refine ⟨by simp [callCommands, contCommands], ?_⟩
  rw [exec_eq_execWith, runBy_callCommands, crc16, inTransform_outTransform]
  rfl

/-- Settles O43, by the lengths that fit and those that do not. -/
theorem callLengthIsCheckedAgainstBuffer : Obligations.CallLengthIsCheckedAgainstBuffer :=
  fun S _ _ s => ⟨fun h => callWithLength_next S s h,
    fun h => ⟨callWithLength_of_lt exec S s h, contWithLength_of_lt exec s h⟩,
    fun _ h hr => contWithLength_next h hr, fun h hs => contWithLength_unseeded h hs⟩

/-- Settles O44: without its `NOP`s the run is the call, whose response names nothing of the state and of the parameters only the
four. -/
theorem callIsDeterministic : Obligations.CallIsDeterministic := by
  intro p q S B cs s hpoly hrefIn hrefOut hxorOut hcs
  have hrun := runBy_execWith_filter_nop q cs s
  rw [hcs, runBy_callCommands, andThen_next, andThen_eq_next] at hrun
  obtain ⟨t, ht, hports⟩ := hrun
  have hresponses := congrArg State.responses (Host.Outcome.next.inj hports)
  rw [crc16_congr hpoly hrefIn hrefOut hxorOut]
  exact ⟨t, ht, hresponses⟩

/-- Settles O46: the law is that `In` undoes `Out`; on the engine the register holds the fold of the first buffer when the second
begins, whether or not it was read out between. -/
theorem callsCompose : Obligations.CallsCompose := by
  refine ⟨crc16_crc16, fun S B1 B2 s t v h hv => ?_, fun S B1 B2 s => ?_, fun S B1 B2 s => ?_⟩
  · rw [← crc16_crc16, ← exec_callCommands_rsp h hv]
    exact exec_callCommands_responds v B2 t
  · rw [← contCommands_append]
    exact exec_callCommands_responds S (B1 ++ B2) s
  · have hsplit : Instr.seed S :: (contCommands B1 ++ [Instr.read] ++ contCommands B2 ++ [Instr.read]) =
        callCommands S B1 ++ (contCommands B2 ++ [Instr.read]) := by
      rw [List.append_assoc]
      rfl
    rw [hsplit]
    exact exec_callCommands_continued S B1 B2 s

/-- Settles O47: the register holds `In` of the external state, and the `FOLD`s of the buffer fold into it. -/
theorem contFoldsIntoTheRunningState : Obligations.ContFoldsIntoTheRunningState := by
  refine ⟨fun B s E hE => ?_, rfl, fun B1 B2 => (contCommands_append B1 B2).symm⟩
  rw [exec_eq_execWith, runBy_contCommands _ B (externalState_eq_some.mp hE)]
  refine ⟨_, rfl, externalState_eq_some.mpr ?_, rfl⟩
  rw [crc16, inTransform_outTransform]
  rfl

/-- Settles O48: what `SAVE` responds is the checksum of the first buffer, and `RESTORE` of it with the rest is a call that composes
with it (R115), from whatever state the commands between have left. -/
theorem saveAndRestoreResume : Obligations.SaveAndRestoreResume := by
  intro S v B1 B2 between s t u hsave hv _
  have hcall : runBy exec (callCommands S B1) s = .next t := hsave
  rw [← crc16_crc16, ← exec_callCommands_rsp hcall hv]
  exact exec_callCommands_responds v B2 u

/-- Settles O49: the change is a power of x modulo `G`, and `G` divides none. -/
theorem singleBitFlipIsDetected : Obligations.SingleBitFlipIsDetected :=
  fun _ S _ _ _ hpoly hk hj => crc16_flipBit_ne hpoly S hk hj

/-- Settles O50: each data bit shifts the remainder and feeds nothing back. -/
theorem zeroPolyIgnoresTheData : Obligations.ZeroPolyIgnoresTheData := by
  refine fun p hp => ⟨fun r d => ?_, fun r b => ?_, fun r B hB => ?_, fun S B => ?_⟩
  · rw [hp, bitstep_zero_poly]
  · exact foldbuf_of_zero_poly hp r [b]
  · rw [foldbuf_of_zero_poly hp, shl16, BitVec.shiftLeft_eq_zero (by omega)]
  · rw [crc16, foldbuf_of_zero_poly hp]

/-- Settles O51: `In`, the fold and `Out` are affine, and linear without a mask. -/
theorem crcIsAffine : Obligations.CrcIsAffine :=
  fun p S1 S2 S3 _ _ _ h12 h23 => ⟨crc16_xor_three p S1 S2 S3 h12 h23, fun hmask => crc16_xor_of_no_mask hmask S1 S2 h12⟩

/-- Settles O52: `In` and `Out` are bijections, and the fold of the buffer's bits is one exactly as stated. -/
theorem seedIsRecoverableExactlyForOddPoly : Obligations.SeedIsRecoverableExactlyForOddPoly :=
  crc16_bijective_iff

/-- Settles O53: the one read of the register in `FOLD` and `READ`, and the one check of a length. -/
theorem onlyTheTwoRefusals : Obligations.OnlyTheTwoRefusals :=
  ⟨fun _ _ _ => exec_refused_iff, fun _ _ _ _ _ => ⟨callWithLength_refused_iff, contWithLength_refused_iff⟩⟩

/-- Settles O57, by induction on the commands. -/
theorem runsCompleteExactlyWhenSeeded : Obligations.RunsCompleteExactlyWhenSeeded :=
  runBy_next_iff_wellSeeded

end
